-- ==== Sys2Proof/Word.lean ====
section
/-! DEFINITION. The word type of the core: a byte is 8 bits and every quantity is unsigned (00_scope.md R6). -/

namespace Sys2Proof

/-- A byte: the width of a register, a memory cell, an operand and the flags (R5 `XLEN` = 8, R6). -/
abbrev Byte := BitVec 8

end Sys2Proof
end

