-- ==== Sys2Proof/Machine/Flags.lean ====
section
/-! DEFINITION. The flags byte: how CMP computes it and how JEQ and JNE read it. -/

namespace Sys2Proof.Machine

/-- The weights of the three meaningful bits (R17): Equal is bit 0, Greater bit 1, Less bit 2. -/
def flagEqual : Byte := 1
def flagGreater : Byte := 2
def flagLess : Byte := 4

/-- One flag: its weight when the condition holds, else 0. -/
def flagIf (weight : Byte) (condition : Bool) : Byte := if condition then weight else 0

/-- The whole byte CMP writes (R88): `4 * L + 2 * G + E`, an unsigned comparison, bits 7:3 zero; the old value has
no influence. -/
def compareFlags (a b : Byte) : Byte :=
  flagIf flagLess (a.toNat < b.toNat) ||| flagIf flagGreater (b.toNat < a.toNat)
    ||| flagIf flagEqual (a.toNat == b.toNat)

/-- JEQ's test: the whole byte equals the literal 1, not "bit 0 is set" (R99). -/
def jeqTaken (fl : Byte) : Bool := fl == 1

/-- JNE's test: the whole byte is one of the literals 0, 2, 4 (R100). -/
def jneTaken (fl : Byte) : Bool := fl == 0 || fl == 2 || fl == 4

end Sys2Proof.Machine
end

