-- ==== Sys2Proof/Config.lean ====
section
/-! DEFINITION. What is fixed for a whole run: the parameters of 00_scope.md R5 and the one free value. -/

namespace Sys2Proof

/-- The thirteen opcode bytes `OPC_LDI` … `OPC_HLT`, OPEN parameters of the core (R5, R54, D1).
Every meaning is independent of them: only the decoder and the encoder take them. -/
structure Opcodes where
  ldi  : Byte
  prn  : Byte
  add  : Byte
  mul  : Byte
  cmp  : Byte
  push : Byte
  pop  : Byte
  call : Byte
  ret  : Byte
  jump : Byte
  jeq  : Byte
  jne  : Byte
  hlt  : Byte
deriving DecidableEq, Repr

/-- The thirteen values in the order of the opcode table (R54). -/
def Opcodes.toList (m : Opcodes) : List Byte :=
  [m.ldi, m.prn, m.add, m.mul, m.cmp, m.push, m.pop, m.call, m.ret, m.jump, m.jeq, m.jne, m.hlt]

/-- The constraint R54 puts on the parameters: thirteen pairwise different bytes. -/
abbrev Opcodes.Distinct (m : Opcodes) : Prop := m.toList.Nodup

namespace Config

/-- The default opcode values of R54 and opcode_table.json.
PRESUMED (log entry 1): the spec takes them from general knowledge, not from its source. -/
def opcodes : Opcodes :=
  { ldi := 0x82, prn := 0x47, add := 0xA0, mul := 0xA2, cmp := 0xA7, push := 0x45, pop := 0x46,
    call := 0x50, ret := 0x11, jump := 0x54, jeq := 0x55, jne := 0x56, hlt := 0x01 }

/-- `R7_RESET`, the OPEN reset value of register 7, at the default the spec decides (R5, D5; log entry 2). -/
def r7Reset : Byte := 0

/-- `SP_INIT` (R5, R19). -/
def spInit : Byte := 244

/-- `RESET_PC` (R5, R151). -/
def resetPc : Nat := 0

/-- `LOAD_BASE`, where the Loader writes the first image byte (R5, R112). -/
def loadBase : Nat := 0

/-- `MEMSIZE` (R5, R30): addresses are 0 to 255. -/
def memSize : Nat := 256

/-- FREE VALUE (log entry 8): the byte memory holds at `addr` after the failed load that was the host's call
number `call`. "The contents of memory after a failed load are not specified" (R113). -/
opaque failedLoadByte (call addr : Nat) : Byte

end Config
end Sys2Proof
end

