-- ==== Sys2Proof/Syntax.lean ====
section
/-! DEFINITION. The thirteen instructions, one constructor for each row of the opcode table (30_encoding.md R54). -/

namespace Sys2Proof

/-- The names of the thirteen instructions, in the order of the opcode table (R54). -/
inductive Mnemonic where
  | ldi | prn | add | mul | cmp | push | pop | call | ret | jump | jeq | jne | hlt
deriving DecidableEq, Repr

/-- The four formats (R51): no operand, one register, two registers, register and immediate. -/
inductive Format where
  | z | r | rr | ri
deriving DecidableEq, Repr

/-- How many operand bytes follow the opcode (R51). -/
def Format.operandCount : Format → Nat
  | .z => 0
  | .r => 1
  | .rr => 2
  | .ri => 2

/-- The format column of R54: a table looked up row by row, never bits 7:6 of the opcode (R55). -/
def Mnemonic.format : Mnemonic → Format
  | .ldi => .ri
  | .prn => .r
  | .add => .rr
  | .mul => .rr
  | .cmp => .rr
  | .push => .r
  | .pop => .r
  | .call => .r
  | .ret => .z
  | .jump => .r
  | .jeq => .r
  | .jne => .r
  | .hlt => .z

/-- The operand count `n` of R56 and R72. -/
def Mnemonic.operandCount (mn : Mnemonic) : Nat := mn.format.operandCount

/-- An instruction with its operand bytes. A register operand is the WHOLE operand byte (R52): an index of 8 or
more is recognised, and raises `OutOfBounds(RegIndex)` when executed. -/
inductive Instr where
  /-- `LDI r v` (R80). -/
  | ldi (r v : Byte)
  /-- `PRN r` (R81). -/
  | prn (r : Byte)
  /-- `ADD a b` (R86). -/
  | add (a b : Byte)
  /-- `MUL a b` (R87). -/
  | mul (a b : Byte)
  /-- `CMP a b` (R88). -/
  | cmp (a b : Byte)
  /-- `PUSH r` (R91). -/
  | push (r : Byte)
  /-- `POP r` (R92). -/
  | pop (r : Byte)
  /-- `CALL r` (R96). -/
  | call (r : Byte)
  /-- `RET` (R97). -/
  | ret
  /-- `JUMP r` (R98). -/
  | jump (r : Byte)
  /-- `JEQ r` (R99). -/
  | jeq (r : Byte)
  /-- `JNE r` (R100). -/
  | jne (r : Byte)
  /-- `HLT` (R105). -/
  | hlt
deriving DecidableEq, Repr

/-- The row of the opcode table an instruction belongs to. -/
def Instr.mnemonic : Instr → Mnemonic
  | .ldi _ _ => .ldi
  | .prn _ => .prn
  | .add _ _ => .add
  | .mul _ _ => .mul
  | .cmp _ _ => .cmp
  | .push _ => .push
  | .pop _ => .pop
  | .call _ => .call
  | .ret => .ret
  | .jump _ => .jump
  | .jeq _ => .jeq
  | .jne _ => .jne
  | .hlt => .hlt

/-- The operand bytes in the order they lie in memory, the first at the lower address (R33, R51). -/
def Instr.operands : Instr → List Byte
  | .ldi r v => [r, v]
  | .prn r => [r]
  | .add a b => [a, b]
  | .mul a b => [a, b]
  | .cmp a b => [a, b]
  | .push r => [r]
  | .pop r => [r]
  | .call r => [r]
  | .ret => []
  | .jump r => [r]
  | .jeq r => [r]
  | .jne r => [r]
  | .hlt => []

/-- The operands that are register indices, in the order they are tested: A before B (R52, R130). -/
def Instr.regOperands : Instr → List Byte
  | .ldi r _ => [r]
  | .prn r => [r]
  | .add a b => [a, b]
  | .mul a b => [a, b]
  | .cmp a b => [a, b]
  | .push r => [r]
  | .pop r => [r]
  | .call r => [r]
  | .ret => []
  | .jump r => [r]
  | .jeq r => [r]
  | .jne r => [r]
  | .hlt => []

/-- The register an instruction writes, the "registers written" column of 10_state.md R13. -/
def Instr.destination : Instr → Option Byte
  | .ldi r _ => some r
  | .add a _ => some a
  | .mul a _ => some a
  | .pop r => some r
  | .prn _ => none
  | .cmp _ _ => none
  | .push _ => none
  | .call _ => none
  | .ret => none
  | .jump _ => none
  | .jeq _ => none
  | .jne _ => none
  | .hlt => none

/-- The length in bytes: the opcode and its operands (R50). -/
def Instr.length (i : Instr) : Nat := i.mnemonic.operandCount + 1

end Sys2Proof
end

