-- ==== Sys2Proof/Decode.lean ====
section
/-! DEFINITION. The decoder (30_encoding.md R50 to R58), total on any bytes and rejecting by name, and the encoder. -/

namespace Sys2Proof

/-- Why bytes are no instruction. -/
inductive DecodeError where
  /-- There is no opcode byte at all. -/
  | noOpcode
  /-- The opcode byte is none of the thirteen (R57). -/
  | unrecognized (b : Byte)
  /-- The opcode is recognised and its operand number `k` (1 or 2) is the first that is missing (R62, R73). -/
  | missingOperand (k : Nat)
deriving DecidableEq, Repr

/-- What decoding a list of bytes gives: an instruction and the bytes after it, or a rejection by name. -/
inductive Decoded where
  | ok (i : Instr) (rest : List Byte)
  | reject (e : DecodeError)
deriving DecidableEq, Repr

/-- `Decode(ir)` of R56: all eight bits are compared, `none` is "unrecognised". -/
def decodeOpcode (m : Opcodes) (ir : Byte) : Option Mnemonic :=
  if ir = m.ldi then some .ldi
  else if ir = m.prn then some .prn
  else if ir = m.add then some .add
  else if ir = m.mul then some .mul
  else if ir = m.cmp then some .cmp
  else if ir = m.push then some .push
  else if ir = m.pop then some .pop
  else if ir = m.call then some .call
  else if ir = m.ret then some .ret
  else if ir = m.jump then some .jump
  else if ir = m.jeq then some .jeq
  else if ir = m.jne then some .jne
  else if ir = m.hlt then some .hlt
  else none

/-- The instruction of a mnemonic and its operand bytes; a byte the format lacks is ignored (R51). -/
def assemble (mn : Mnemonic) (op1 op2 : Byte) : Instr :=
  match mn with
  | .ldi => .ldi op1 op2
  | .prn => .prn op1
  | .add => .add op1 op2
  | .mul => .mul op1 op2
  | .cmp => .cmp op1 op2
  | .push => .push op1
  | .pop => .pop op1
  | .call => .call op1
  | .ret => .ret
  | .jump => .jump op1
  | .jeq => .jeq op1
  | .jne => .jne op1
  | .hlt => .hlt

/-- Takes the operand bytes the format asks for, the first operand first (R73). -/
def decodeOperands (mn : Mnemonic) (bs : List Byte) : Decoded :=
  match mn.operandCount, bs with
  | 0, rest => .ok (assemble mn 0 0) rest
  | 1, op1 :: rest => .ok (assemble mn op1 0) rest
  | _, op1 :: op2 :: rest => .ok (assemble mn op1 op2) rest
  | _, [_] => .reject (.missingOperand 2)
  | _, [] => .reject (.missingOperand 1)

/-- Decodes the instruction at the head of a list of bytes. An unrecognised opcode takes no operand (R57). -/
def decode (m : Opcodes) : List Byte → Decoded
  | [] => .reject .noOpcode
  | ir :: rest =>
    match decodeOpcode m ir with
    | none => .reject (.unrecognized ir)
    | some mn => decodeOperands mn rest

/-- The opcode byte of a mnemonic, the parameter column of R54. -/
def opcodeOf (m : Opcodes) : Mnemonic → Byte
  | .ldi => m.ldi
  | .prn => m.prn
  | .add => m.add
  | .mul => m.mul
  | .cmp => m.cmp
  | .push => m.push
  | .pop => m.pop
  | .call => m.call
  | .ret => m.ret
  | .jump => m.jump
  | .jeq => m.jeq
  | .jne => m.jne
  | .hlt => m.hlt

/-- The bytes of an instruction: opcode, then operands, at ascending addresses (R50, R51). -/
def encode (m : Opcodes) (i : Instr) : List Byte := opcodeOf m i.mnemonic :: i.operands

/-- The length of the longest instruction (R50). -/
def maxLength : Nat := 3

/-- `count` bytes of the number `w`, the least significant byte first. -/
def bytesOfNat (w : Nat) : Nat → List Byte
  | 0 => []
  | count + 1 => BitVec.ofNat 8 w :: bytesOfNat (w / 256) count

/-- The bytes of an instruction word numbered as opcode_table.json numbers it: bit 0 is the least significant bit
of the first byte, every bit above `nbits` is 0. -/
def tableWordBytes (nbits w : Nat) : List Byte := bytesOfNat (w % 2 ^ nbits) maxLength

/-- The instruction the decoder reads from a word of the opcode table, under the default opcode values. -/
def decodeTableWord (nbits w : Nat) : Option Instr :=
  match decode Config.opcodes (tableWordBytes nbits w) with
  | .ok i _ => some i
  | .reject _ => none

end Sys2Proof
end

