-- ==== Sys2Proof/Machine/State.lean ====
section
/-! DEFINITION. The nine items of state (10_state.md R10), reset (R27), and the reasons a step or a host call stops. -/

namespace Sys2Proof.Machine

/-- The eight general registers (R11). Register 7 is an ordinary one and not the stack pointer (R12). -/
structure Regs where
  x0 : Byte
  x1 : Byte
  x2 : Byte
  x3 : Byte
  x4 : Byte
  x5 : Byte
  x6 : Byte
  x7 : Byte
deriving DecidableEq, Repr

/-- Memory as address and byte pairs in canonical form (`Memory.wf`): addresses strictly rising and below 256, no
entry equal to `Memory.unlisted`, so that equal memories are equal lists. -/
abbrev Memory := List Host.Cell

/-- What an address that is not listed reads as: the reset contents (R27, R44). -/
def Memory.unlisted : Byte := 0

/-- The run state (R22). -/
inductive RunState where
  /-- Reset done, nothing running. -/
  | idle
  /-- The Loader reported failure; the Dispatcher must not start. -/
  | loadFailed
  /-- Each step executes one instruction. -/
  | running
  /-- Stopped by HLT. -/
  | halted
  /-- Stopped by a fatal condition. -/
  | faulted
deriving DecidableEq, Repr

/-- The places where a bound is tested, the sub-kinds of `OutOfBounds` (R8, R125). -/
inductive BoundsKind where
  | fetch | operand | regIndex | stack
deriving DecidableEq, Repr

/-- The kinds of fault a step can raise (R125). LoadFailure is never raised by a step (R128): it is
`RunState.loadFailed`. -/
inductive FaultKind where
  | unrecognizedOpcode
  | outOfBounds (sub : BoundsKind)
deriving DecidableEq, Repr

/-- The fault record (R23): kind, address of the faulting opcode byte, that byte when one was fetched, and for
`OutOfBounds` the offending index (an unbounded integer: a push at `sp = 0` reports -1, R90). -/
structure FaultRecord where
  kind   : FaultKind
  addr   : Nat
  opcode : Option Byte
  index  : Option Int
deriving DecidableEq, Repr

/-- The complete state of the core (R10): nine items, nothing else. -/
structure State where
  /-- `x[0]` to `x[7]` (R11). -/
  regs  : Regs
  /-- `pc` (R14): an unsigned integer that never wraps, reachable values 0 to 256 (R16). -/
  pc    : Nat
  /-- `fl` (R17): bit 0 Equal, bit 1 Greater, bit 2 Less. -/
  fl    : Byte
  /-- `sp` (R19): the address of the byte most recently pushed; no instruction names it. -/
  sp    : Byte
  /-- `lim` (R21): the image length latched at load, 0 to 256. -/
  lim   : Nat
  /-- `run` (R22). -/
  run   : RunState
  /-- `fault` (R23). -/
  fault : Option FaultRecord
  /-- `out` (R24): the bytes PRN has emitted, in execution order. -/
  out   : List Byte
  /-- `MEM` (R25). -/
  mem   : Memory
deriving DecidableEq, Repr

/-- The state after reset with register 7 at the OPEN parameter `R7_RESET` (R27, R150, D5). -/
def State.resetWith (r7 : Byte) : State :=
  { regs := { x0 := 0, x1 := 0, x2 := 0, x3 := 0, x4 := 0, x5 := 0, x6 := 0, x7 := r7 }
    pc := Config.resetPc
    fl := 0
    sp := Config.spInit
    lim := 0
    run := .idle
    fault := none
    out := []
    mem := [] }

/-- The machine right after reset, `initialize()` (R111, R150). -/
def State.reset : State := State.resetWith Config.r7Reset

/-- The host's calls at the boundary (R110 to R114). -/
inductive HostCall where
  /-- `initialize()` (R111). -/
  | init
  /-- `load(bytes)` (R112). -/
  | load (image : List Byte)
  /-- The Loader's report that the image cannot be read (R113). -/
  | loadFailed
  /-- `run()` (R114). -/
  | run
deriving DecidableEq, Repr

/-- Why `step` gives no next state. The faults of the CORE are next states with `run` Faulted and a record
(R76), not constructors here. -/
inductive Fault where
  /-- Raised by `step` alone, when `run` is not Running: "No step exists in any state but Running" (R22).
  SAFE: nothing is claimed of a step that does not exist (log entry 5). -/
  | noStep (run : RunState)
deriving DecidableEq, Repr

/-- Why a call is refused. -/
inductive Refusal where
  /-- An arm of `exec` whose instruction has no meaning yet raises it; no arm does. SAFE. -/
  | notModelled (mnemonic : String)
  /-- Raised by `hostCall` for a host call outside the sequence initialize, load, run, to which the source
  gives no meaning (R110, D18). SAFE: no state follows from it (log entries 6 and 7). -/
  | callOutOfOrder (call : HostCall)
deriving DecidableEq, Repr

end Sys2Proof.Machine
end

