-- ==== Sys2Proof/Machine/Ops.lean ====
section
/-! DEFINITION. The named operations over registers, memory and the other state; raising a fault; finishing a step. -/

namespace Sys2Proof.Machine

/-! Registers (10_state.md R11) -/

/-- `x[i]`: every register is readable and none is hard-wired (R11). -/
def Regs.get (x : Regs) (i : Fin 8) : Byte :=
  match i with
  | 0 => x.x0
  | 1 => x.x1
  | 2 => x.x2
  | 3 => x.x3
  | 4 => x.x4
  | 5 => x.x5
  | 6 => x.x6
  | 7 => x.x7

/-- `x[i] <- v`: every register is writable (R11). -/
def Regs.set (x : Regs) (i : Fin 8) (v : Byte) : Regs :=
  match i with
  | 0 => { x with x0 := v }
  | 1 => { x with x1 := v }
  | 2 => { x with x2 := v }
  | 3 => { x with x3 := v }
  | 4 => { x with x4 := v }
  | 5 => { x with x5 := v }
  | 6 => { x with x6 := v }
  | 7 => { x with x7 := v }

/-! Memory (20_memory.md) -/

/-- The byte at an address, `Memory.unlisted` where nothing is listed (R44). -/
def Memory.get : Memory → Nat → Byte
  | [], _ => Memory.unlisted
  | (k, v) :: rest, a => if k = a then v else Memory.get rest a

/-- Adds an entry in front, or nothing when the byte is what an unlisted address reads as. -/
def Memory.cons (a : Nat) (v : Byte) (rest : Memory) : Memory :=
  if v = Memory.unlisted then rest else (a, v) :: rest

/-- Writes one entry and keeps the canonical form. -/
def Memory.put : Memory → Nat → Byte → Memory
  | [], a, v => Memory.cons a v []
  | (k, w) :: rest, a, v =>
    if a < k then Memory.cons a v ((k, w) :: rest)
    else if a = k then Memory.cons a v rest
    else (k, w) :: Memory.put rest a v

/-- Writes a byte of the 256 that exist; there is nothing to write at any other address (R30). -/
def Memory.write (m : Memory) (a : Nat) (v : Byte) : Memory :=
  if a < Config.memSize then m.put a v else m

/-- Writes bytes at ascending addresses from `a`, in list order (R112). -/
def Memory.writeBytes (m : Memory) (a : Nat) : List Byte → Memory
  | [] => m
  | b :: rest => Memory.writeBytes (m.write a b) (a + 1) rest

/-- The canonical form from address `lo` upward: rising addresses below 256, no listed byte equal to the
unlisted one. -/
def Memory.wfFrom (lo : Nat) : Memory → Bool
  | [] => true
  | (k, v) :: rest =>
    decide (lo ≤ k) && decide (k < Config.memSize) && decide (v ≠ Memory.unlisted) && Memory.wfFrom (k + 1) rest

/-- The canonical form of a memory. -/
def Memory.wf (m : Memory) : Bool := Memory.wfFrom 0 m

/-! State: the one home of every item's reads and writes -/

/-- `x[i]`. -/
def State.getReg (s : State) (i : Fin 8) : Byte := s.regs.get i

/-- `x[i] <- v`. -/
def State.setReg (s : State) (i : Fin 8) (v : Byte) : State := { s with regs := s.regs.set i v }

/-- `pc <- t` (R14). -/
def State.setPc (s : State) (t : Nat) : State := { s with pc := t }

/-- `fl <- v` (R17). -/
def State.setFl (s : State) (v : Byte) : State := { s with fl := v }

/-- `sp <- v` (R19). -/
def State.setSp (s : State) (v : Byte) : State := { s with sp := v }

/-- `run <- r` (R22). -/
def State.setRun (s : State) (r : RunState) : State := { s with run := r }

/-- `MEM` as a whole. -/
def State.setMem (s : State) (m : Memory) : State := { s with mem := m }

/-- `Output(v)`: the output port takes one byte and its trace grows (R24, R116). -/
def State.emit (s : State) (v : Byte) : State := { s with out := s.out ++ [v] }

/-- The addresses that exist, tested on the unbounded integer (R31). -/
abbrev inBounds (a : Int) : Prop := 0 ≤ a ∧ a ≤ 255

/-- `MemRead(addr, 1)`: `none` where R31 raises `OutOfBounds`. -/
def State.memRead (s : State) (a : Int) : Option Byte :=
  if inBounds a then some (s.mem.get a.toNat) else none

/-- `MemWrite(addr, 1, v)`: `none` where R31 raises `OutOfBounds`. -/
def State.memWrite (s : State) (a : Int) (v : Byte) : Option State :=
  if inBounds a then some (s.setMem (s.mem.write a.toNat v)) else none

/-- The operand reads of an instruction: each advances `pc` by one (R73), so `n` of them leave `pc0 + n`. -/
def State.passOperands (s : State) (n : Nat) : State := s.setPc (s.pc + n)

/-! Faults: TAKING the core's only exception, shared by every instruction and by the cycle -/

/-- The opcode byte of the step, `none` when the fetch itself leaves memory (R71, R76 "ir if fetched"). -/
def State.fetchedOpcode (s : State) : Option Byte := s.memRead s.pc

/-- `raise`, applied to the state in which the step began (R76, R132): the fault is recorded with the address of
the opcode byte, `run` becomes Faulted and nothing else changes. There is no handler and no return (R131, R133). -/
def State.raise (s : State) (kind : FaultKind) (index : Option Int) : State :=
  { s with
    run := .faulted
    fault := some { kind := kind, addr := s.pc, opcode := s.fetchedOpcode, index := index } }

/-! Signals: how the execute part ends -/

/-- The outcome of the execute part (R74), with the state it has made. -/
inductive Signal where
  /-- `Advance`. -/
  | advance (t : State)
  /-- `Jump(target)`. -/
  | jump (t : State) (target : Byte)
  /-- `Halt`. -/
  | halt (t : State)
  /-- `raise OutOfBounds(sub, index)`: what the step has made so far is discarded. -/
  | raise (sub : BoundsKind) (index : Int)

/-- The program-counter update (R75) and the abandoning of a faulted step (R76); `s` is the state in which the
step began. `pc + 1` is not reduced modulo 256 (R16). -/
def finish (s : State) : Signal → State
  | .advance t => t.setPc (t.pc + 1)
  | .jump t target => t.setPc target.toNat
  | .halt t => t.setRun .halted
  | .raise sub index => s.raise (.outOfBounds sub) (some index)

/-- One instruction from the state in which its step began: its operand reads move `pc` (R73), its execute part
runs (R74), the counter is updated (R75) or the step is abandoned (R76). -/
def perform (mn : Mnemonic) (body : State → Signal) (s : State) : Host.Outcome State Fault Refusal :=
  .next (finish s (body (s.passOperands mn.operandCount)))

end Sys2Proof.Machine
end

