-- ==== Sys2Proof/Machine/Operands.lean ====
section
/-! DEFINITION. The operand forms: a register index with its bounds test, and the top of the stack. -/

namespace Sys2Proof.Machine

/-- A register operand byte as an index: never masked, `none` for 8 and above (R52). -/
def regIndex (b : Byte) : Option (Fin 8) :=
  if h : b.toNat < 8 then some ⟨b.toNat, h⟩ else none

/-- Tests a register operand before anything uses it; 8 or more raises `OutOfBounds(RegIndex, byte)` (R52). -/
def withReg (b : Byte) (k : Fin 8 → Signal) : Signal :=
  match regIndex b with
  | some i => k i
  | none => .raise .regIndex b.toNat

/-- `StackOK(a)` on an unbounded integer (R90). -/
abbrev State.stackOK (s : State) (a : Int) : Prop := (s.lim : Int) ≤ a ∧ a ≤ 255

/-- The slot a push would write, `sp - 1` on unbounded integers (R90, R91). -/
def State.pushSlot (s : State) : Int := (s.sp.toNat : Int) - 1

/-- The slot a pop would read, `sp` as an unbounded integer (R90, R92). -/
def State.popSlot (s : State) : Int := (s.sp.toNat : Int)

/-- The push of PUSH and CALL (R91, R96): test the slot, write it, move `sp` down to it. -/
def pushByte (v : Byte) (s : State) (k : State → Signal) : Signal :=
  if s.stackOK s.pushSlot then
    match s.memWrite s.pushSlot v with
    | some t => k (t.setSp (BitVec.ofInt 8 s.pushSlot))
    | none => .raise .stack s.pushSlot
  else .raise .stack s.pushSlot

/-- The pop of POP and RET (R92, R97): test the slot, then the `sp` it would leave, read the byte, move `sp` up. -/
def popByte (s : State) (k : Byte → State → Signal) : Signal :=
  if s.stackOK s.popSlot then
    if s.popSlot + 1 ≤ 255 then
      match s.memRead s.popSlot with
      | some v => k v (s.setSp (BitVec.ofInt 8 (s.popSlot + 1)))
      | none => .raise .stack s.popSlot
    else .raise .stack (s.popSlot + 1)
  else .raise .stack s.popSlot

end Sys2Proof.Machine
end

