-- ==== Sys2Proof/Machine/Alu.lean ====
section
/-! DEFINITION. The ALU and its three instructions ADD, MUL, CMP (42_alu.md). -/

namespace Sys2Proof.Machine

/-- What the ALU gives back, "(result, flagsDelta)" (R85): a byte for the destination register, or none, and a
new flags byte, or none. -/
structure AluResult where
  result : Option Byte
  flags  : Option Byte
deriving DecidableEq, Repr

/-- ADD: `(a + b) mod 256`, no flag effect (R85, R86). -/
def aluAdd (a b : Byte) : AluResult :=
  { result := some (BitVec.ofNat 8 (a.toNat + b.toNat)), flags := none }

/-- MUL: `(a * b) mod 256`, the high byte of the product is lost, no flag effect (R85, R87). -/
def aluMul (a b : Byte) : AluResult :=
  { result := some (BitVec.ofNat 8 (a.toNat * b.toNat)), flags := none }

/-- CMP: no result, all of the flags byte (R85, R88). -/
def aluCmp (a b : Byte) : AluResult :=
  { result := none, flags := some (compareFlags a b) }

/-- Writes what the ALU gave: the result to register `i`, the flags to `fl`, each only where there is one. -/
def State.applyAlu (s : State) (i : Fin 8) (r : AluResult) : State :=
  let t := match r.result with
    | some v => s.setReg i v
    | none => s
  match r.flags with
  | some f => t.setFl f
  | none => t

/-- The shape of the three ALU instructions: index A is tested before index B, both sources are read before the
destination is written (R86 to R88, R130). -/
def aluBody (op : Byte → Byte → AluResult) (a b : Byte) (t : State) : Signal :=
  withReg a fun i => withReg b fun j => .advance (t.applyAlu i (op (t.getReg i) (t.getReg j)))

/-- ADD a b (R86). -/
def execAdd (a b : Byte) (s : State) : Host.Outcome State Fault Refusal :=
  perform .add (aluBody aluAdd a b) s

/-- MUL a b (R87). -/
def execMul (a b : Byte) (s : State) : Host.Outcome State Fault Refusal :=
  perform .mul (aluBody aluMul a b) s

/-- CMP a b (R88). -/
def execCmp (a b : Byte) (s : State) : Host.Outcome State Fault Refusal :=
  perform .cmp (aluBody aluCmp a b) s

end Sys2Proof.Machine
end

