-- ==== Sys2Proof/Machine/Control.lean ====
section
/-! DEFINITION. CALL, RET, JUMP, JEQ, JNE (44_control.md). -/

namespace Sys2Proof.Machine

/-- The byte CALL stacks: `pc` after its operand read, `pc0 + 1`, "truncated to one byte" (R96). -/
def returnByte (t : State) : Byte := BitVec.ofNat 8 t.pc

/-- CALL r (R96): push the return byte, then jump to `x[r]`. -/
def execCall (r : Byte) (s : State) : Host.Outcome State Fault Refusal :=
  perform .call (fun t => withReg r fun i => pushByte (returnByte t) t fun u => .jump u (u.getReg i)) s

/-- RET (R97): `pc` from the stack, and the final advance still applies (90_conflicts.md C1). -/
def execRet (s : State) : Host.Outcome State Fault Refusal :=
  perform .ret (fun t => popByte t fun v u => .advance (u.setPc v.toNat)) s

/-- JUMP r (R98): unconditional. -/
def execJump (r : Byte) (s : State) : Host.Outcome State Fault Refusal :=
  perform .jump (fun t => withReg r fun i => .jump t (t.getReg i)) s

/-- A conditional jump: the register index is tested whether or not the branch is taken (R99, R100, D8). -/
def branchBody (taken : Byte → Bool) (r : Byte) (t : State) : Signal :=
  withReg r fun i => if taken t.fl then .jump t (t.getReg i) else .advance t

/-- JEQ r (R99). -/
def execJeq (r : Byte) (s : State) : Host.Outcome State Fault Refusal :=
  perform .jeq (branchBody jeqTaken r) s

/-- JNE r (R100). -/
def execJne (r : Byte) (s : State) : Host.Outcome State Fault Refusal :=
  perform .jne (branchBody jneTaken r) s

end Sys2Proof.Machine
end

