-- ==== Sys2Proof/Machine/Halt.lean ====
section
/-! DEFINITION. HLT (45_halt_illegal.md R105); the unrecognised opcode (R106) is raised by the cycle. -/

namespace Sys2Proof.Machine

/-- HLT (R105): `run` becomes Halted, `pc` stays at the HLT byte (D9). -/
def execHlt (s : State) : Host.Outcome State Fault Refusal :=
  perform .hlt .halt s

end Sys2Proof.Machine
end

