-- ==== Sys2Proof/Machine/LoadPrint.lean ====
section
/-! DEFINITION. LDI and PRN (41_load_print.md). -/

namespace Sys2Proof.Machine

/-- LDI r v (R80): `x[r] <- v`. -/
def execLdi (r v : Byte) (s : State) : Host.Outcome State Fault Refusal :=
  perform .ldi (fun t => withReg r fun i => .advance (t.setReg i v)) s

/-- PRN r (R81): the output port takes `x[r]`. -/
def execPrn (r : Byte) (s : State) : Host.Outcome State Fault Refusal :=
  perform .prn (fun t => withReg r fun i => .advance (t.emit (t.getReg i))) s

end Sys2Proof.Machine
end

