-- ==== Sys2Proof/Machine/Stack.lean ====
section
/-! DEFINITION. PUSH and POP (43_stack.md). -/

namespace Sys2Proof.Machine

/-- PUSH r (R91): the register index is tested before the stack (R130). -/
def execPush (r : Byte) (s : State) : Host.Outcome State Fault Refusal :=
  perform .push (fun t => withReg r fun i => pushByte (t.getReg i) t .advance) s

/-- POP r (R92): the byte stays in memory. -/
def execPop (r : Byte) (s : State) : Host.Outcome State Fault Refusal :=
  perform .pop (fun t => withReg r fun i => popByte t fun v u => .advance (u.setReg i v)) s

end Sys2Proof.Machine
end

