-- ==== Sys2Proof/Machine/Cycle.lean ====
section
/-! DEFINITION. The fetch-decode-execute cycle (40_cycle.md R70 to R77): what `step` calls. -/

namespace Sys2Proof.Machine

/-- The bytes from address `a` upward, at most `count`, ending where memory ends (R62: nothing is taken from
address 0). Reads have no side effect (R35). -/
def State.bytesFrom (s : State) (a : Nat) : Nat → List Byte
  | 0 => []
  | count + 1 =>
    match s.memRead a with
    | some b => b :: s.bytesFrom (a + 1) count
    | none => []

/-- The bytes the fetch and the operand reads can reach: at most three from `pc` (R71, R73). -/
def State.fetchBytes (s : State) : List Byte := s.bytesFrom s.pc maxLength

/-- The fault of a step whose bytes are no instruction: the fetch bound (R71), the unrecognised opcode (R106), or
the bound of operand number `k`, whose address is `pc0 + k` (R73). -/
def raiseRejected (s : State) : DecodeError → State
  | .noOpcode => s.raise (.outOfBounds .fetch) (some s.pc)
  | .unrecognized _ => s.raise .unrecognizedOpcode none
  | .missingOperand k => s.raise (.outOfBounds .operand) (some ((s.pc : Int) + k))

/-- The whole step of R77, for a core that is Running. -/
def cycle (m : Opcodes) (s : State) : Host.Outcome State Fault Refusal :=
  match decode m s.fetchBytes with
  | .ok i _ => exec i s
  | .reject e => .next (raiseRejected s e)

/-- A step exists only in Running (R22, R70); elsewhere `step` stops by name (log entry 5). -/
def stepIfRunning (m : Opcodes) (s : State) : Host.Outcome State Fault Refusal :=
  if s.run = .running then cycle m s else .fault (.noStep s.run)

/-- Bytes placed where the next step fetches, with the cycle enabled: it stands for the load and the `run()` that
bring a program to run (log entry 11). -/
def State.placeInstruction (s : State) (bs : List Byte) : State :=
  (s.setMem (s.mem.writeBytes s.pc bs)).setRun .running

end Sys2Proof.Machine
end

