-- ==== Sys2Proof/Machine/Step.lean ====
section
/-! DEFINITION. One step of the core, for any opcode values and for the default ones. -/

namespace Sys2Proof.Machine

/-- One step under any assignment of the opcode values (the OPEN parameters of R5). -/
def stepWith (m : Opcodes) (s : State) : Host.Outcome State Fault Refusal := stepIfRunning m s

/-- One step under the default opcode values. -/
def step (s : State) : Host.Outcome State Fault Refusal := stepWith Config.opcodes s

/-- `s` with the instruction whose bits are `w` placed at `pc` and the core Running, so that the very next step
runs it; nothing else changes. -/
def State.withFetchWord (s : State) (nbits w : Nat) : State := s.placeInstruction (tableWordBytes nbits w)

end Sys2Proof.Machine
end

