-- ==== Sys2Proof/Machine/Launch.lean ====
section
/-! DEFINITION. The host interface (50_host_interface.md): initialize, load, load failure, run, status. -/

namespace Sys2Proof.Machine

/-! The transactions on the core's state -/

/-- `load(bytes)` (R112): the image at addresses 0 upward, `lim` latched, everything else unchanged. -/
def State.load (s : State) (image : List Byte) : State :=
  { s with mem := s.mem.writeBytes Config.loadBase image, lim := image.length }

/-- Memory after the failed load that was the host's call number `call`: 256 free bytes in canonical form (R113). -/
@[irreducible] def failedMemory (call : Nat) : Memory :=
  Memory.writeBytes [] 0 ((List.range Config.memSize).map (Config.failedLoadByte call))

/-- `load_failed` (R113): `run <- LoadFailed`, memory unspecified. -/
def State.loadFail (s : State) (call : Nat) : State :=
  { s with run := .loadFailed, mem := failedMemory call }

/-- `run()` in Idle (R114): the cycle is enabled. -/
def State.start (s : State) : State := s.setRun .running

/-- The core at launch: reset, with the image loaded, Running (R110, R152). -/
def launch (r7 : Byte) (image : List Byte) : State := ((State.resetWith r7).load image).start

/-! The sequence of calls -/

/-- What the host's side of the boundary knows. None of it is the core's state, which is `core` and nothing else
(R10); the other two fields are the model's own (log entry 6). -/
structure Session where
  /-- The core, which does not exist before the first `initialize()`. -/
  core   : Option State
  /-- Whether this launch's one load was made, in success or in failure (R110). -/
  loaded : Bool
  /-- How many calls were made; it numbers the free value of a failed load. -/
  calls  : Nat
deriving DecidableEq, Repr

/-- Before anything. -/
def Session.cold : Session := { core := none, loaded := false, calls := 0 }

/-- The session after a call that leaves the core as `s`. -/
def Session.after (h : Session) (s : State) (loaded : Bool) : Session :=
  { core := some s, loaded := loaded, calls := h.calls + 1 }

/-- An image the memory can hold (R112, R113). -/
abbrev imageFits (image : List Byte) : Prop := image.length ≤ Config.memSize

/-- Delivers an image, or the failure an over-long one is (R112, R113, D21). -/
def State.deliver (s : State) (image : List Byte) (call : Nat) : State :=
  if imageFits image then s.load image else s.loadFail call

/-- The core a load may act on: Idle, with no load made yet (R110, R112). -/
def Session.loadable (h : Session) : Option State :=
  match h.core with
  | some s => if s.run = .idle ∧ h.loaded = false then some s else none
  | none => none

/-- The core `initialize()` makes: there is none yet, or the old one is not Running (R111, R117). -/
def Session.initializable (h : Session) : Bool :=
  match h.core with
  | some s => s.run != .running
  | none => true

/-- The core after `run()`: it starts from Idle once loaded (R114); after a failed load it does not start (R113). -/
def Session.runnable (h : Session) : Option State :=
  match h.core with
  | some s =>
    if s.run = .idle ∧ h.loaded = true then some s.start
    else if s.run = .loadFailed then some s
    else none
  | none => none

/-- One call of the host. The one legal sequence is initialize, one load, run; a call outside it is refused by
name (R110, D18). `r7` is the OPEN parameter `R7_RESET` of the core that `initialize()` resets (R5, R111,
D5; its default is `Config.r7Reset`). -/
def hostCall (r7 : Byte) (c : HostCall) (h : Session) : Host.Outcome Session Fault Refusal :=
  match c with
  | .init =>
    if h.initializable then .next (h.after (State.resetWith r7) false) else .refused (.callOutOfOrder c)
  | .load image =>
    match h.loadable with
    | some s => .next (h.after (s.deliver image h.calls) true)
    | none => .refused (.callOutOfOrder c)
  | .loadFailed =>
    match h.loadable with
    | some s => .next (h.after (s.loadFail h.calls) true)
    | none => .refused (.callOutOfOrder c)
  | .run =>
    match h.runnable with
    | some s => .next (h.after s h.loaded)
    | none => .refused (.callOutOfOrder c)

/-! Status -/

/-- The statuses of R115, with what each carries. -/
inductive Status where
  | normalHalt
  | unrecognizedOpcode (addr : Nat) (opcode : Option Byte)
  | outOfBounds (sub : BoundsKind) (index : Option Int) (addr : Nat) (opcode : Option Byte)
  | loadFailure
deriving DecidableEq, Repr

/-- The status a fault record gives (R115). -/
def FaultRecord.status (r : FaultRecord) : Status :=
  match r.kind with
  | .unrecognizedOpcode => .unrecognizedOpcode r.addr r.opcode
  | .outOfBounds sub => .outOfBounds sub r.index r.addr r.opcode

/-- The status `run()` returns, `none` while it has not returned (R115, R118). -/
def State.status (s : State) : Option Status :=
  match s.run with
  | .halted => some .normalHalt
  | .faulted => s.fault.map FaultRecord.status
  | .loadFailed => some .loadFailure
  | .idle => none
  | .running => none

/-- The Dispatcher's loop for at most `fuel` steps (R78): it ends early only where no step exists; a run that has
not ended is reported as it stands, never as a stop (U15). -/
def runLoop (m : Opcodes) : Nat → State → State
  | 0, s => s
  | fuel + 1, s =>
    match stepWith m s with
    | .next t => runLoop m fuel t
    | .fault _ => s
    | .refused _ => s

end Sys2Proof.Machine
end

