-- ==== Sys2Proof/WellFormed.lean ====
section
/-! DEFINITION. Which instructions name registers that exist (30_encoding.md R52). -/

namespace Sys2Proof

/-- A register index is 0 to 7 (R11, R52). -/
def validRegIndex (b : Byte) : Bool := b.toNat < 8

/-- Every register operand names one of the eight registers. An instruction that is not well formed is still
encoded and decoded (R52); executed, it raises `OutOfBounds(RegIndex)`. LDI's immediate has no illegal value (R53). -/
def Instr.wellFormed (i : Instr) : Bool := i.regOperands.all validRegIndex

end Sys2Proof
end

