-- ==== Sys2Proof/Safety.lean ====
section
/-! DEFINITION. What every state of a run satisfies, and which states runs reach, in the terms the statements use. -/

namespace Sys2Proof.Machine

/-- The values the flags byte ever holds (10_state.md R18). -/
abbrev legalFlags (fl : Byte) : Prop := fl = 0 ∨ fl = 1 ∨ fl = 2 ∨ fl = 4

/-- The machine invariant. -/
structure State.Inv (s : State) : Prop where
  /-- Memory is in canonical form (the model's own representation). -/
  memWf : s.mem.wf = true
  /-- `pc` is 0 to 256 (R16). -/
  pcRange : s.pc ≤ 256
  /-- `lim` is 0 to 256 (R21). -/
  limRange : s.lim ≤ 256
  /-- `fl` is 0, 1, 2 or 4 (R18). -/
  flags : legalFlags s.fl
  /-- `sp` is at or above the program, or was never moved (R20, R90). -/
  stackAbove : s.lim ≤ s.sp.toNat ∨ s.sp = Config.spInit
  /-- There is a fault record exactly in Faulted (R22, R23). -/
  faultRecorded : s.run = .faulted ↔ s.fault.isSome = true
  /-- Before a run the core is as reset left it, but for what a load writes (R22, R112, R113). -/
  freshBeforeRun : s.run = .idle ∨ s.run = .loadFailed →
    s = { State.resetWith s.regs.x7 with mem := s.mem, lim := s.lim, run := s.run }

/-- The bytes `bs` lie in memory at ascending addresses from `a` (R33). -/
def State.HoldsAt (s : State) (a : Nat) (bs : List Byte) : Prop :=
  ∀ k, (h : k < bs.length) → s.memRead ((a : Int) + k) = some bs[k]

/-- The bounds faults every instruction of a mnemonic shares, raised before its execute part and whatever its
operand bytes are: the fetch above 255 (R71), then the first operand address above 255, which is 256 (R73, R125). -/
def BoundsBeforeExecute (m : Opcodes) (mn : Mnemonic) : Prop :=
  ∀ s : State, s.run = .running →
    (255 < s.pc → stepWith m s = .next (s.raise (.outOfBounds .fetch) (some s.pc))) ∧
    (s.memRead s.pc = some (opcodeOf m mn) → ∀ k, 1 ≤ k → k ≤ mn.operandCount → s.pc + k = 256 →
      stepWith m s = .next (s.raise (.outOfBounds .operand) (some 256)))

/-- The four instructions that use the stack (R90). -/
def usesStack : Instr → Bool
  | .push _ => true
  | .pop _ => true
  | .call _ => true
  | .ret => true
  | .ldi _ _ => false
  | .prn _ => false
  | .add _ _ => false
  | .mul _ _ => false
  | .cmp _ _ => false
  | .jump _ => false
  | .jeq _ => false
  | .jne _ => false
  | .hlt => false

/-- The states a run of `image` passes through, from launch (R110, R152) by steps. -/
inductive Launched (m : Opcodes) (r7 : Byte) (image : List Byte) : State → Prop where
  | start : imageFits image → Launched m r7 image (launch r7 image)
  | step {s t : State} : Launched m r7 image s → stepWith m s = .next t → Launched m r7 image t

/-- The sessions the host and the core reach together: calls of the host, and steps of a Running core, for
given values of the OPEN parameters `OPC_*` and `R7_RESET` (R5). -/
inductive Session.Reachable (m : Opcodes) (r7 : Byte) : Session → Prop where
  | cold : Session.Reachable m r7 Session.cold
  | call {h h' : Session} (c : HostCall) :
      Session.Reachable m r7 h → hostCall r7 c h = .next h' → Session.Reachable m r7 h'
  | step {h : Session} {s t : State} :
      Session.Reachable m r7 h → h.core = some s → stepWith m s = .next t →
      Session.Reachable m r7 { h with core := some t }

end Sys2Proof.Machine
end

