-- ==== Sys2Proof/Certificates/Slice0/Obligations.lean ====
section
/-! DEFINITION. The statements for the provers. Each names the rules of the spec it formalises or rests on.
`raise` is the model's reading of the notation of 00_scope.md R7; what it leaves is stated by `FaultsArePrecise`. -/

open Sys2Proof Sys2Proof.Machine

/-! ## Reset and memory -/

/-- R27, R150: every item after reset. The values of `x[7]`, `lim`, `run`, `fault` and `out` are the spec's decisions
D5, D13, D18 and D20; register 7 is stated for every value of the parameter `R7_RESET` and for its default. -/
def Obligations.ResetGivesEveryItemItsValue : Prop :=
  (∀ r7 : Byte, ∀ i : Fin 8, (State.resetWith r7).regs.get i = if i = 7 then r7 else 0) ∧
  (∀ r7 : Byte, ∀ a : Int, inBounds a → (State.resetWith r7).memRead a = some 0) ∧
  (∀ r7 : Byte, (State.resetWith r7).pc = 0 ∧ (State.resetWith r7).fl = 0 ∧
    (State.resetWith r7).sp.toNat = 244 ∧ (State.resetWith r7).lim = 0 ∧ (State.resetWith r7).run = .idle ∧
    (State.resetWith r7).fault = none ∧ (State.resetWith r7).out = []) ∧
  State.reset = State.resetWith 0

/-- R31: the two access primitives. An address outside 0 to 255 has no access; inside, a read changes nothing
(it is a function of the state) and returns the last value written to that address, and a write leaves every other
address and everything but memory alone. Read-back needs memory in canonical form, which every step keeps. -/
def Obligations.MemoryAccessIsBoundsChecked : Prop :=
  ∀ (s : State) (a : Int) (v : Byte),
    ((a < 0 ∨ 255 < a) → s.memRead a = none ∧ s.memWrite a v = none) ∧
    (0 ≤ a → a ≤ 255 → (∃ b, s.memRead a = some b) ∧
      ∃ t, s.memWrite a v = some t ∧ (s.mem.wf = true → t.memRead a = some v) ∧
        (∀ b, b ≠ a → t.memRead b = s.memRead b) ∧ t = { s with mem := t.mem })

/-! ## Encoding -/

/-- R50, R51, R54, R56: for any pairwise different opcode values, decoding the bytes of an instruction gives that
instruction, every operand byte at every value, and leaves the bytes after it. -/
def Obligations.DecodeOfEncodeIsTheInstruction : Prop :=
  ∀ (m : Opcodes) (i : Instr) (rest : List Byte), m.Distinct → decode m (encode m i ++ rest) = .ok i rest

/-- R50, R51, R56, R58: bytes that decode are exactly the encoding of what they decode to, for any opcode values:
no byte has two readings and none is ignored. -/
def Obligations.EncodeOfDecodeGivesTheBytesBack : Prop :=
  ∀ (m : Opcodes) (bs rest : List Byte) (i : Instr), decode m bs = .ok i rest → encode m i ++ rest = bs

/-- R56, R57: a byte is unrecognised exactly when it is none of the thirteen values; then no operand is looked at.
With the default values these are 243 of the 256 bytes, 0x00 among them. -/
def Obligations.OtherBytesAreUnrecognized : Prop :=
  (∀ (m : Opcodes) (b : Byte) (rest : List Byte),
    decode m (b :: rest) = .reject (.unrecognized b) ↔ b ∉ m.toList) ∧
  ((List.range 256).filter fun n => decide (BitVec.ofNat 8 n ∉ Config.opcodes.toList)).length = 243 ∧
  (0 : Byte) ∉ Config.opcodes.toList

/-- Words written out from R51 and the default values of R54 (which are from general knowledge, log entry 1), one of
each format: they decode to what they stand for. -/
def Obligations.WrittenOutWordsDecode : Prop :=
  decode Config.opcodes [0b10000010#8, 0b00000000#8, 0b01000001#8] = .ok (.ldi 0 65) [] ∧
  decode Config.opcodes [0b10100000#8, 0b00000010#8, 0b00000011#8] = .ok (.add 2 3) [] ∧
  decode Config.opcodes [0b01000101#8, 0b00000111#8] = .ok (.push 7) [] ∧
  decode Config.opcodes [0b01010000#8, 0b00000001#8] = .ok (.call 1) [] ∧
  decode Config.opcodes [0b00010001#8] = .ok .ret []

/-! ## The cycle -/

/-- R70, R73, R77: when the bytes at `pc` are those of an instruction, the step of a Running core is exactly `exec` of
that instruction at that state (`exec` itself moves past the instruction's bytes); for any opcode values under which
they decode so, and for the machine's own step. -/
def Obligations.StepRunsTheInstructionAtPc : Prop :=
  (∀ (m : Opcodes) (s : State) (bs : List Byte) (i : Instr),
    s.run = .running → s.HoldsAt s.pc bs → decode m bs = .ok i [] → stepWith m s = exec i s) ∧
  (∀ (s : State) (bs : List Byte) (i : Instr),
    s.run = .running → s.HoldsAt s.pc bs → decode Config.opcodes bs = .ok i [] →
      Sys2Proof.Machine.step s = exec i s)

/-- R22 "No step exists in any state but Running": such a step answers the fault noStep, which is the model's own
choice (log entry 5). -/
def Obligations.NoStepOutsideRunning : Prop :=
  ∀ (m : Opcodes) (s : State), s.run ≠ .running → stepWith m s = .fault (.noStep s.run)

/-- R71, R73, R125 (decisions D2 and D6; log entries 3 and 9): the bounds faults of the fetch and of the operand reads,
for every mnemonic, whatever the operand bytes that can be read are. -/
def Obligations.FetchAndOperandBoundsFault : Prop :=
  ∀ (m : Opcodes) (mn : Mnemonic), m.Distinct → BoundsBeforeExecute m mn

/-- R106: an unrecognised opcode raises UnrecognizedOpcode at every address: no operand is read, nothing else
changes, the record is (UnrecognizedOpcode, pc0, ir), and `run()` returns the fatal status carrying both. -/
def Obligations.UnrecognizedOpcodeIsFatal : Prop :=
  ∀ (m : Opcodes) (s : State) (ir : Byte), s.run = .running → s.memRead s.pc = some ir → ir ∉ m.toList →
    stepWith m s = .next { s with
      run := .faulted
      fault := some { kind := .unrecognizedOpcode, addr := s.pc, opcode := some ir, index := none } } ∧
    ∀ t, stepWith m s = .next t → t.status = some (.unrecognizedOpcode s.pc (some ir))

/-- R76, R132 (decision D6; log entry 9): a step that faults leaves everything but `run` and `fault` as it was when it
began, and records the address of its opcode byte and that byte when one was fetched. -/
def Obligations.FaultsArePrecise : Prop :=
  ∀ (m : Opcodes) (s t : State), s.run = .running → stepWith m s = .next t → t.run = .faulted →
    ∃ kind index, t = { s with
      run := .faulted
      fault := some { kind := kind, addr := s.pc, opcode := s.memRead s.pc, index := index } }

/-- R52, R90, R130 (decisions D7, D8, D12; log entries 10 and 14): the tests of an instruction in their order. The
first bad register operand, A before B, is reported whatever the stack and the flags; only then the stack tests, for a
pop the slot before the new `sp`. -/
def Obligations.InstructionTestsComeInOrder : Prop :=
  ∀ (i : Instr) (s : State),
    (∀ b, i.regOperands.find? (fun b => !validRegIndex b) = some b →
      exec i s = .next (s.raise (.outOfBounds .regIndex) (some b.toNat))) ∧
    (i.wellFormed = true → (∃ r, i = .push r ∨ i = .call r) → (s.sp.toNat : Int) - 1 < s.lim →
      exec i s = .next (s.raise (.outOfBounds .stack) (some ((s.sp.toNat : Int) - 1)))) ∧
    (i.wellFormed = true → ((∃ r, i = .pop r) ∨ i = .ret) → s.sp.toNat < s.lim →
      exec i s = .next (s.raise (.outOfBounds .stack) (some s.sp.toNat))) ∧
    (i.wellFormed = true → ((∃ r, i = .pop r) ∨ i = .ret) → s.lim ≤ s.sp.toNat → s.sp.toNat = 255 →
      exec i s = .next (s.raise (.outOfBounds .stack) (some 256)))

/-- R164: a Running core always steps, whatever its state: to a next state, never to a stop by name. -/
def Obligations.RunningCoreAlwaysSteps : Prop :=
  ∀ (m : Opcodes) (s : State), s.run = .running →
    ∃ t, stepWith m s = .next t ∧ (t.run = .running ∨ t.run = .halted ∨ t.run = .faulted)

/-- R118, R105: a step that ends in Halted fetched the HLT byte at `pc`, and changed nothing but `run`. -/
def Obligations.OnlyHltHalts : Prop :=
  ∀ (m : Opcodes) (s t : State), s.run = .running → stepWith m s = .next t → t.run = .halted →
    s.memRead s.pc = some m.hlt ∧ t = { s with run := .halted }

/-! ## Load immediate and print -/

/-- R80: LDI. Encoding; the bounds faults before it executes; `x[r] <- v` for every `v`, `pc0 + 3`, nothing else;
the fault of a register byte of 8 or more. -/
def Obligations.LdiLoadsTheImmediate : Prop :=
  (∀ m : Opcodes, m.Distinct →
    (∀ r v, encode m (.ldi r v) = [m.ldi, r, v]) ∧ BoundsBeforeExecute m .ldi) ∧
  ∀ (r v : Byte) (s : State),
    (∀ h : r.toNat < 8,
      exec (.ldi r v) s = .next { s with regs := s.regs.set ⟨r.toNat, h⟩ v, pc := s.pc + 3 }) ∧
    (8 ≤ r.toNat → exec (.ldi r v) s = .next (s.raise (.outOfBounds .regIndex) (some r.toNat)))

/-- R81: PRN. Encoding; the bounds faults before it executes; `x[r]` is appended to the output, `pc0 + 2`, nothing
else; a register byte of 8 or more faults and nothing is emitted. -/
def Obligations.PrnEmitsTheRegister : Prop :=
  (∀ m : Opcodes, m.Distinct → (∀ r, encode m (.prn r) = [m.prn, r]) ∧ BoundsBeforeExecute m .prn) ∧
  ∀ (r : Byte) (s : State),
    (∀ h : r.toNat < 8,
      exec (.prn r) s = .next { s with out := s.out ++ [s.regs.get ⟨r.toNat, h⟩], pc := s.pc + 2 }) ∧
    (8 ≤ r.toNat → exec (.prn r) s = .next (s.raise (.outOfBounds .regIndex) (some r.toNat)) ∧
      ∀ t, exec (.prn r) s = .next t → t.out = s.out)

/-- R81 "LDI followed by PRN on the same register emits exactly the loaded value, for all byte values 0–255", for
every register, over the bytes in memory and the machine's cycle under any opcode values. -/
def Obligations.LdiThenPrnEmitsTheValue : Prop :=
  ∀ (m : Opcodes) (s : State) (r v : Byte), m.Distinct → s.run = .running → r.toNat < 8 →
    s.HoldsAt s.pc [m.ldi, r, v, m.prn, r] →
    ∃ t u, stepWith m s = .next t ∧ stepWith m t = .next u ∧ u.out = s.out ++ [v] ∧ u.pc = s.pc + 5 ∧
      u.run = .running

/-! ## The ALU -/

/-- R86: ADD. Encoding; the bounds faults before it executes; `(x[a] + x[b]) mod 256` with both sources read first,
`pc0 + 3`, nothing else, in particular no flag; index A is tested before index B. -/
def Obligations.AddWrapsModulo256 : Prop :=
  (∀ m : Opcodes, m.Distinct → (∀ a b, encode m (.add a b) = [m.add, a, b]) ∧ BoundsBeforeExecute m .add) ∧
  ∀ (a b : Byte) (s : State),
    (∀ (ha : a.toNat < 8) (hb : b.toNat < 8), exec (.add a b) s = .next { s with
      regs := s.regs.set ⟨a.toNat, ha⟩
        (BitVec.ofNat 8 (((s.regs.get ⟨a.toNat, ha⟩).toNat + (s.regs.get ⟨b.toNat, hb⟩).toNat) % 256))
      pc := s.pc + 3 }) ∧
    (8 ≤ a.toNat → exec (.add a b) s = .next (s.raise (.outOfBounds .regIndex) (some a.toNat))) ∧
    (a.toNat < 8 → 8 ≤ b.toNat → exec (.add a b) s = .next (s.raise (.outOfBounds .regIndex) (some b.toNat)))

/-- R87: MUL. Encoding; the bounds faults before it executes; `(x[a] * x[b]) mod 256` with both sources read first,
`pc0 + 3`, nothing else, in particular no flag; index A is tested before index B. -/
def Obligations.MulWrapsModulo256 : Prop :=
  (∀ m : Opcodes, m.Distinct → (∀ a b, encode m (.mul a b) = [m.mul, a, b]) ∧ BoundsBeforeExecute m .mul) ∧
  ∀ (a b : Byte) (s : State),
    (∀ (ha : a.toNat < 8) (hb : b.toNat < 8), exec (.mul a b) s = .next { s with
      regs := s.regs.set ⟨a.toNat, ha⟩
        (BitVec.ofNat 8 (((s.regs.get ⟨a.toNat, ha⟩).toNat * (s.regs.get ⟨b.toNat, hb⟩).toNat) % 256))
      pc := s.pc + 3 }) ∧
    (8 ≤ a.toNat → exec (.mul a b) s = .next (s.raise (.outOfBounds .regIndex) (some a.toNat))) ∧
    (a.toNat < 8 → 8 ≤ b.toNat → exec (.mul a b) s = .next (s.raise (.outOfBounds .regIndex) (some b.toNat)))

/-- R88 (with the decisions D10, bits 7:3 zero, and D11, unsigned; log entry 13): CMP. Encoding, the tested register
first; the bounds faults before it executes; it writes the whole flags byte, 4 for less, 2 for greater, 1 for equal,
whatever it was; `pc0 + 3`; no register and nothing else; index A is tested before index B. -/
def Obligations.CmpRecomputesAllFlags : Prop :=
  (∀ m : Opcodes, m.Distinct → (∀ a b, encode m (.cmp a b) = [m.cmp, a, b]) ∧ BoundsBeforeExecute m .cmp) ∧
  ∀ (a b : Byte) (s : State),
    (∀ (ha : a.toNat < 8) (hb : b.toNat < 8), ∃ f : Byte,
      exec (.cmp a b) s = .next { s with fl := f, pc := s.pc + 3 } ∧
      ((s.regs.get ⟨a.toNat, ha⟩).toNat < (s.regs.get ⟨b.toNat, hb⟩).toNat → f = 4) ∧
      ((s.regs.get ⟨b.toNat, hb⟩).toNat < (s.regs.get ⟨a.toNat, ha⟩).toNat → f = 2) ∧
      ((s.regs.get ⟨a.toNat, ha⟩).toNat = (s.regs.get ⟨b.toNat, hb⟩).toNat → f = 1)) ∧
    (8 ≤ a.toNat → exec (.cmp a b) s = .next (s.raise (.outOfBounds .regIndex) (some a.toNat))) ∧
    (a.toNat < 8 → 8 ≤ b.toNat → exec (.cmp a b) s = .next (s.raise (.outOfBounds .regIndex) (some b.toNat)))

/-! ## The stack -/

/-- R91: PUSH. Encoding; the bounds faults before it executes; `x[r]` at `sp - 1`, `sp - 1`, `pc0 + 2`, nothing else;
the register fault, then the stack fault when `sp - 1 < lim` (decisions D12 and D13; log entry 14). -/
def Obligations.PushStoresBelowTheTop : Prop :=
  (∀ m : Opcodes, m.Distinct → (∀ r, encode m (.push r) = [m.push, r]) ∧ BoundsBeforeExecute m .push) ∧
  ∀ (r : Byte) (s : State),
    (∀ h : r.toNat < 8, s.lim < s.sp.toNat → ∃ t, exec (.push r) s = .next t ∧
      t = { s with mem := t.mem, sp := s.sp - 1, pc := s.pc + 2 } ∧
      (s.mem.wf = true → t.memRead ((s.sp.toNat : Int) - 1) = some (s.regs.get ⟨r.toNat, h⟩)) ∧
      ∀ a, a ≠ (s.sp.toNat : Int) - 1 → t.memRead a = s.memRead a) ∧
    (8 ≤ r.toNat → exec (.push r) s = .next (s.raise (.outOfBounds .regIndex) (some r.toNat))) ∧
    (r.toNat < 8 → s.sp.toNat ≤ s.lim →
      exec (.push r) s = .next (s.raise (.outOfBounds .stack) (some ((s.sp.toNat : Int) - 1))))

/-- R92: POP. Encoding; the bounds faults before it executes; `x[r]` takes the byte at `sp`, which stays in memory,
`sp + 1`, `pc0 + 2`, nothing else; the register fault, then `sp < lim`, then `sp = 255` (decision D12; log entry 14). -/
def Obligations.PopLoadsTheTop : Prop :=
  (∀ m : Opcodes, m.Distinct → (∀ r, encode m (.pop r) = [m.pop, r]) ∧ BoundsBeforeExecute m .pop) ∧
  ∀ (r : Byte) (s : State),
    (∀ h : r.toNat < 8, s.lim ≤ s.sp.toNat → s.sp.toNat < 255 → ∃ v, s.memRead s.sp.toNat = some v ∧
      exec (.pop r) s =
        .next { s with regs := s.regs.set ⟨r.toNat, h⟩ v, sp := s.sp + 1, pc := s.pc + 2 }) ∧
    (8 ≤ r.toNat → exec (.pop r) s = .next (s.raise (.outOfBounds .regIndex) (some r.toNat))) ∧
    (r.toNat < 8 → s.sp.toNat < s.lim →
      exec (.pop r) s = .next (s.raise (.outOfBounds .stack) (some s.sp.toNat))) ∧
    (r.toNat < 8 → s.lim ≤ s.sp.toNat → s.sp.toNat = 255 →
      exec (.pop r) s = .next (s.raise (.outOfBounds .stack) (some 256)))

/-- R92 "For any register value v and any balanced PUSH then POP into the same register, the stack pointer returns to
its pre-push value and the register still holds v"; no other register moves either. -/
def Obligations.PushThenPopRestores : Prop :=
  ∀ (r : Byte) (s : State), r.toNat < 8 → s.lim < s.sp.toNat → s.mem.wf = true →
    ∃ t u, exec (.push r) s = .next t ∧ exec (.pop r) t = .next u ∧ u.sp = s.sp ∧ u.regs = s.regs ∧
      u.run = s.run

/-! ## Control transfer -/

/-- R96: CALL. Encoding; the bounds faults before it executes; the byte `pc0 + 1` (low eight bits) at `sp - 1`,
`sp - 1`, `pc` becomes `x[r]`, nothing else; the register fault, then the stack fault when `sp - 1 < lim` (decisions
D12 and D13; log entry 14). -/
def Obligations.CallStacksItsOperandAddress : Prop :=
  (∀ m : Opcodes, m.Distinct → (∀ r, encode m (.call r) = [m.call, r]) ∧ BoundsBeforeExecute m .call) ∧
  ∀ (r : Byte) (s : State),
    (∀ h : r.toNat < 8, s.lim < s.sp.toNat → ∃ t, exec (.call r) s = .next t ∧
      t = { s with mem := t.mem, sp := s.sp - 1, pc := (s.regs.get ⟨r.toNat, h⟩).toNat } ∧
      (s.mem.wf = true → t.memRead ((s.sp.toNat : Int) - 1) = some (BitVec.ofNat 8 (s.pc + 1))) ∧
      ∀ a, a ≠ (s.sp.toNat : Int) - 1 → t.memRead a = s.memRead a) ∧
    (8 ≤ r.toNat → exec (.call r) s = .next (s.raise (.outOfBounds .regIndex) (some r.toNat))) ∧
    (r.toNat < 8 → s.sp.toNat ≤ s.lim →
      exec (.call r) s = .next (s.raise (.outOfBounds .stack) (some ((s.sp.toNat : Int) - 1))))

/-- R97 (conflict C1, decisions D4 and D12; log entries 4 and 14): RET. Encoding; the fetch fault; it resumes at the
stacked byte plus one, which may be 256, `sp + 1`, nothing else; it faults at `sp < lim`, then at `sp = 255`. -/
def Obligations.RetResumesPastTheStackedByte : Prop :=
  (∀ m : Opcodes, m.Distinct → encode m .ret = [m.ret] ∧ BoundsBeforeExecute m .ret) ∧
  ∀ s : State,
    (s.lim ≤ s.sp.toNat → s.sp.toNat < 255 → ∃ v : Byte, s.memRead s.sp.toNat = some v ∧
      exec .ret s = .next { s with pc := v.toNat + 1, sp := s.sp + 1 }) ∧
    (s.sp.toNat < s.lim → exec .ret s = .next (s.raise (.outOfBounds .stack) (some s.sp.toNat))) ∧
    (s.lim ≤ s.sp.toNat → s.sp.toNat = 255 →
      exec .ret s = .next (s.raise (.outOfBounds .stack) (some 256)))

/-- R96, R97 (conflict C1; log entry 4): a CALL whose bytes fit in memory, followed by a RET in any state with the
same stack pointer and limit whose stacked byte is still there, resumes at the instruction after the CALL's operand
byte, with `sp` as before the CALL. -/
def Obligations.CallThenRetResumesAfterTheCall : Prop :=
  ∀ (r : Byte) (s t u : State), r.toNat < 8 → s.lim < s.sp.toNat → s.mem.wf = true → s.pc + 1 ≤ 255 →
    exec (.call r) s = .next t → u.sp = t.sp → u.lim = t.lim → u.memRead t.sp.toNat = t.memRead t.sp.toNat →
    exec .ret u = .next { u with pc := s.pc + 2, sp := s.sp }

/-- R98: JUMP. Encoding; the bounds faults before it executes; `pc` becomes `x[r]` and nothing else changes; the
register fault. -/
def Obligations.JumpTakesTheRegister : Prop :=
  (∀ m : Opcodes, m.Distinct → (∀ r, encode m (.jump r) = [m.jump, r]) ∧ BoundsBeforeExecute m .jump) ∧
  ∀ (r : Byte) (s : State),
    (∀ h : r.toNat < 8, exec (.jump r) s = .next { s with pc := (s.regs.get ⟨r.toNat, h⟩).toNat }) ∧
    (8 ≤ r.toNat → exec (.jump r) s = .next (s.raise (.outOfBounds .regIndex) (some r.toNat)))

/-- R99 (decision D8, log entry 10: the index is tested in either case): JEQ. Encoding; the bounds faults before it
executes; it is taken exactly when the whole flags byte is 1, for every flags byte, reachable or not; else it falls
through to `pc0 + 2`; nothing but `pc` changes. -/
def Obligations.JeqComparesTheWholeByte : Prop :=
  (∀ m : Opcodes, m.Distinct → (∀ r, encode m (.jeq r) = [m.jeq, r]) ∧ BoundsBeforeExecute m .jeq) ∧
  ∀ (r : Byte) (s : State),
    (∀ h : r.toNat < 8,
      (s.fl = 1 → exec (.jeq r) s = .next { s with pc := (s.regs.get ⟨r.toNat, h⟩).toNat }) ∧
      (s.fl ≠ 1 → exec (.jeq r) s = .next { s with pc := s.pc + 2 })) ∧
    (8 ≤ r.toNat → exec (.jeq r) s = .next (s.raise (.outOfBounds .regIndex) (some r.toNat)))

/-- R100 (decision D8; log entry 10): JNE. Encoding; the bounds faults before it executes; it is taken exactly when the
whole flags byte is 0, 2 or 4, for every flags byte, reachable or not; else it falls through to `pc0 + 2`; nothing but
`pc` changes. -/
def Obligations.JneComparesTheWholeByte : Prop :=
  (∀ m : Opcodes, m.Distinct → (∀ r, encode m (.jne r) = [m.jne, r]) ∧ BoundsBeforeExecute m .jne) ∧
  ∀ (r : Byte) (s : State),
    (∀ h : r.toNat < 8,
      ((s.fl = 0 ∨ s.fl = 2 ∨ s.fl = 4) →
        exec (.jne r) s = .next { s with pc := (s.regs.get ⟨r.toNat, h⟩).toNat }) ∧
      (¬ (s.fl = 0 ∨ s.fl = 2 ∨ s.fl = 4) → exec (.jne r) s = .next { s with pc := s.pc + 2 })) ∧
    (8 ≤ r.toNat → exec (.jne r) s = .next (s.raise (.outOfBounds .regIndex) (some r.toNat)))

/-- R99, R100, R154: after any CMP that does not fault, whatever the flags were, exactly one of JEQ and JNE is taken:
JEQ when the registers were equal, JNE when they were not. That the old flags do not matter rests on CMP clearing
bits 7:3, which is decision D10 (log entry 13): the whole-byte tests are exact only because these bits are zero. -/
def Obligations.CmpDecidesTheBranches : Prop :=
  ∀ (a b r : Byte) (s t : State) (ha : a.toNat < 8) (hb : b.toNat < 8) (hr : r.toNat < 8),
    exec (.cmp a b) s = .next t →
    (s.regs.get ⟨a.toNat, ha⟩ = s.regs.get ⟨b.toNat, hb⟩ →
      exec (.jeq r) t = .next { t with pc := (s.regs.get ⟨r.toNat, hr⟩).toNat } ∧
      exec (.jne r) t = .next { t with pc := t.pc + 2 }) ∧
    (s.regs.get ⟨a.toNat, ha⟩ ≠ s.regs.get ⟨b.toNat, hb⟩ →
      exec (.jeq r) t = .next { t with pc := t.pc + 2 } ∧
      exec (.jne r) t = .next { t with pc := (s.regs.get ⟨r.toNat, hr⟩).toNat })

/-! ## Halt -/

/-- R105 (decision D9, log entry 12: `pc` stays): HLT. Encoding; the fetch fault; it makes `run` Halted and changes
nothing else; then no step exists (the answer noStep is log entry 5) and the status is the normal halt. -/
def Obligations.HltStopsTheRun : Prop :=
  (∀ m : Opcodes, m.Distinct → encode m .hlt = [m.hlt] ∧ BoundsBeforeExecute m .hlt) ∧
  ∀ (m : Opcodes) (s : State),
    exec .hlt s = .next { s with run := .halted } ∧
    ∀ t, exec .hlt s = .next t → t.status = some .normalHalt ∧ stepWith m t = .fault (.noStep .halted)

/-! ## Frames: what every instruction leaves unchanged -/

/-- R13: a register that is not the instruction's destination keeps its value, also when the instruction faults. -/
def Obligations.OnlyTheDestinationRegisterChanges : Prop :=
  ∀ (i : Instr) (s t : State), exec i s = .next t →
    ∀ k : Fin 8, (∀ d, i.destination = some d → d.toNat ≠ k.val) → t.regs.get k = s.regs.get k

/-- R18: only CMP writes the flags, and no instruction but JEQ and JNE lets them influence anything else. -/
def Obligations.FlagsBelongToCmpAndBranches : Prop :=
  ∀ (i : Instr) (s t : State), exec i s = .next t → (∀ a b, i ≠ .cmp a b) →
    t.fl = s.fl ∧
    ((∀ r, i ≠ .jeq r ∧ i ≠ .jne r) → ∀ f : Byte, exec i { s with fl := f } = .next { t with fl := f })

/-- R19, R21, R90: `lim` never changes; `sp` moves by one at most, down only in PUSH and CALL, up only in POP and
RET; and neither of the two influences any instruction but these four. -/
def Obligations.StackStateBelongsToStackInstructions : Prop :=
  ∀ (i : Instr) (s t : State), exec i s = .next t →
    t.lim = s.lim ∧
    ((∃ r, i = .push r ∨ i = .call r) → t.sp = s.sp ∨ t.sp.toNat + 1 = s.sp.toNat) ∧
    (((∃ r, i = .pop r) ∨ i = .ret) → t.sp = s.sp ∨ t.sp.toNat = s.sp.toNat + 1) ∧
    (usesStack i = false → t.sp = s.sp ∧
      ∀ (p : Byte) (l : Nat), exec i { s with sp := p, lim := l } = .next { t with sp := p, lim := l })

/-- R12: register 7 and the stack pointer are different state. The stack instructions, where they do not name
register 7, neither read nor write it; every other instruction, whatever it names, neither reads nor moves `sp`; and
the stack instructions that name register 7 read or write the ordinary register. -/
def Obligations.RegisterSevenIsNotTheStackPointer : Prop :=
  ∀ (i : Instr) (s t : State), exec i s = .next t →
    (usesStack i = true → 7 ∉ i.regOperands → t.regs.get 7 = s.regs.get 7 ∧
      ∀ v : Byte, exec i { s with regs := s.regs.set 7 v } = .next { t with regs := t.regs.set 7 v }) ∧
    (usesStack i = false → t.sp = s.sp ∧ ∀ p : Byte, exec i { s with sp := p } = .next { t with sp := p }) ∧
    (i = .push 7 → s.lim < s.sp.toNat → s.mem.wf = true → t.sp = s.sp - 1 ∧ t.regs = s.regs ∧
      t.memRead ((s.sp.toNat : Int) - 1) = some (s.regs.get 7)) ∧
    (i = .pop 7 → s.lim ≤ s.sp.toNat → s.sp.toNat < 255 → t.sp = s.sp + 1 ∧
      s.memRead s.sp.toNat = some (t.regs.get 7)) ∧
    (i = .call 7 → s.lim < s.sp.toNat → t.sp = s.sp - 1 ∧ t.regs = s.regs ∧ t.pc = (s.regs.get 7).toNat)

/-- R24: the output only grows, by one byte in a PRN that does not fault and by none otherwise; it is empty after
reset, and no instruction reads it. -/
def Obligations.OutputIsWriteOnly : Prop :=
  (∀ r7 : Byte, (State.resetWith r7).out = []) ∧
  ∀ (i : Instr) (s t : State), exec i s = .next t →
    ∃ emitted : List Byte, t.out = s.out ++ emitted ∧
      ((∀ r, i ≠ .prn r) → emitted = []) ∧
      (∀ r, i = .prn r →
        (∀ h : r.toNat < 8, emitted = [s.regs.get ⟨r.toNat, h⟩]) ∧ (8 ≤ r.toNat → emitted = [])) ∧
      ∀ o : List Byte, exec i { s with out := o } = .next { t with out := o ++ emitted }

/-- R32: PUSH and CALL store one byte, at the slot their pre-decrement gives (`pushSlot`, which the meaning computes
after the operand read), and every other address reads as before; every other instruction stores nothing. -/
def Obligations.OnlyTheStackSlotIsStored : Prop :=
  ∀ (i : Instr) (s t : State), exec i s = .next t →
    ((∃ r, i = .push r ∨ i = .call r) →
      ∀ slot : Int, (s.passOperands i.mnemonic.operandCount).pushSlot = slot →
        ∀ a : Int, a ≠ slot → t.memRead a = s.memRead a) ∧
    ((∀ r, i ≠ .push r ∧ i ≠ .call r) → ∀ a : Int, t.memRead a = s.memRead a)

/-- R22, R23: an instruction leaves `run` and `fault` alone, or it is HLT and `run` becomes Halted, or it raises a
fault and sets both (that HLT leaves `pc` is decision D9, log entry 12; that a fault changes nothing else is decision
D6, log entry 9). -/
def Obligations.RunStateChangesOnlyByHltOrFault : Prop :=
  ∀ (i : Instr) (s t : State), exec i s = .next t →
    (t.run = s.run ∧ t.fault = s.fault ∧ i ≠ .hlt) ∨
    (i = .hlt ∧ t = { s with run := .halted }) ∨
    (i ≠ .hlt ∧ ∃ kind index, t = s.raise kind index)

/-! ## Invariants -/

/-- The reset state, for every value of `R7_RESET`, and every launch of an image that fits meet the invariant. -/
def Obligations.ResetAndLaunchMeetTheInvariant : Prop :=
  ∀ (r7 : Byte) (image : List Byte),
    (State.resetWith r7).Inv ∧ (imageFits image → (launch r7 image).Inv)

/-- R16, R18, R20 to R23: every step, from every state that meets the invariant, keeps it: `pc` 0 to 256, `fl` one of 0,
1, 2, 4, `lim` 0 to 256, `sp` not below the program once it moved, a record exactly in Faulted, memory canonical, and
the core as reset left it but for the load while it has not run. The ranges of `pc`, `fl`, `lim` and `sp` rest on D2,
D10, D13 and D12 (log entries 3, 13, 14). For any opcode values, and for the machine's own step. -/
def Obligations.EveryStepKeepsTheInvariant : Prop :=
  (∀ (m : Opcodes) (s t : State), s.Inv → stepWith m s = .next t → t.Inv) ∧
  (∀ s t : State, s.Inv → Sys2Proof.Machine.step s = .next t → t.Inv)

/-- R41, R155 (by the stack tests of decisions D12 and D13; log entry 14): the loaded image never changes. In every
state of every run of any image that fits, the image's bytes lie where the Loader put them, `lim` is its length, and
the invariant holds. -/
def Obligations.LoadedImageNeverChanges : Prop :=
  ∀ (m : Opcodes) (r7 : Byte) (image : List Byte) (s : State), Launched m r7 image s →
    s.Inv ∧ s.lim = image.length ∧ s.HoldsAt 0 image

/-- R110, R117 (log entries 6 and 7): whatever calls the host makes in whatever order, refused ones included, and
however many steps the core takes between them, the core meets the invariant, for any opcode values and any
value of `R7_RESET`. -/
def Obligations.EverySessionKeepsTheInvariant : Prop :=
  ∀ (m : Opcodes) (r7 : Byte) (h : Session) (s : State), Session.Reachable m r7 h → h.core = some s → s.Inv

/-! ## The host interface -/

/-- R110, R152 (log entries 6 and 7): from every session whose core does not exist yet or is not Running, so also
after a run that stopped or a load that failed: initialize, load an image that fits, run. The core is then at the
launch of that image, for any value of `R7_RESET` (log entry 2): reset but for the image from address 0 with zeros
above it, `lim` at its length, and run Running. -/
def Obligations.TheLegalSequenceLaunches : Prop :=
  ∀ (r7 : Byte) (h : Session) (image : List Byte), (∀ s, h.core = some s → s.run ≠ .running) → imageFits image →
    ∃ h1 h2 h3 t,
      hostCall r7 .init h = .next h1 ∧ h1.core = some (State.resetWith r7) ∧
      hostCall r7 (.load image) h1 = .next h2 ∧ hostCall r7 .run h2 = .next h3 ∧ h3.core = some t ∧
      t = launch r7 image ∧
      t = { State.resetWith r7 with mem := t.mem, lim := image.length, run := .running } ∧ t.HoldsAt 0 image ∧
      ∀ a : Int, (image.length : Int) ≤ a → a ≤ 255 → t.memRead a = some 0

/-- R112: a load of an image that fits into an Idle core not yet loaded writes its bytes at 0 upward, latches `lim`,
and leaves every byte beyond the image and all other state unchanged; run stays Idle. -/
def Obligations.LoadFillsFromZero : Prop :=
  ∀ (r7 : Byte) (h : Session) (s : State) (image : List Byte), h.core = some s → s.run = .idle → h.loaded = false →
    s.mem.wf = true → image.length ≤ 256 →
    ∃ h' t, hostCall r7 (.load image) h = .next h' ∧ h'.core = some t ∧ h'.loaded = true ∧
      t = { s with mem := t.mem, lim := image.length } ∧ t.HoldsAt 0 image ∧
      ∀ a : Int, (image.length : Int) ≤ a → t.memRead a = s.memRead a

/-- R113 (decision D21 for the over-long image; log entries 5, 8 and 17): a reported failure, and an image of more
than 256 bytes, give LoadFailed; `run()` then starts nothing, no step exists, the status is LoadFailure. What memory
holds is left free. -/
def Obligations.FailedLoadNeverRuns : Prop :=
  ∀ (m : Opcodes) (r7 : Byte) (h h' : Session) (s : State) (c : HostCall), h.core = some s → s.run = .idle →
    h.loaded = false → (c = .loadFailed ∨ ∃ image, c = .load image ∧ 256 < image.length) →
    hostCall r7 c h = .next h' →
    ∃ t, h'.core = some t ∧ t.run = .loadFailed ∧ t.status = some .loadFailure ∧
      stepWith m t = .fault (.noStep .loadFailed) ∧
      ∃ h'', hostCall r7 .run h' = .next h'' ∧ h''.core = some t

/-- R128: LoadFailure is never raised by a step, and it keeps the run from starting: a core in LoadFailed is there
still after `run()`. -/
def Obligations.LoadFailureIsNoFaultOfAStep : Prop :=
  (∀ (m : Opcodes) (s t : State), stepWith m s = .next t → t.run ≠ .loadFailed) ∧
  ∀ (r7 : Byte) (h : Session) (s : State), h.core = some s → s.run = .loadFailed →
    ∃ h', hostCall r7 .run h = .next h' ∧ h'.core = some s

/-- R110, R117 (decision D18; log entries 6 and 7): calls outside the one legal sequence are refused by name: anything
but initialize before it, a second load, a run without a load, any load or run after the core left Idle, anything at
all during Running. -/
def Obligations.OutOfOrderCallsAreRefused : Prop :=
  ∀ (r7 : Byte) (c : HostCall) (h : Session),
    (h.core = none → c ≠ .init → hostCall r7 c h = .refused (.callOutOfOrder c)) ∧
    (h.loaded = true → (c = .loadFailed ∨ ∃ image, c = .load image) →
      hostCall r7 c h = .refused (.callOutOfOrder c)) ∧
    (∀ s, h.core = some s → s.run = .idle → h.loaded = false → c = .run →
      hostCall r7 c h = .refused (.callOutOfOrder c)) ∧
    (∀ s, h.core = some s → (s.run = .halted ∨ s.run = .faulted) → c ≠ .init →
      hostCall r7 c h = .refused (.callOutOfOrder c)) ∧
    (∀ s, h.core = some s → s.run = .running → hostCall r7 c h = .refused (.callOutOfOrder c))

/-- R111, R139 (log entry 7): in every run state but Running, and before anything, `initialize()` gives exactly the
reset state, with register 7 at `R7_RESET` whatever its value (log entry 2), and a new launch that inherits nothing. -/
def Obligations.InitializeDiscardsEverything : Prop :=
  ∀ (r7 : Byte) (h : Session), (∀ s, h.core = some s → s.run ≠ .running) →
    ∃ h', hostCall r7 .init h = .next h' ∧ h'.core = some (State.resetWith r7) ∧ h'.loaded = false

/-- R115, R118 (the names are decision D15, log entry 15): a step that leaves the core Running gives no status, one that
halts it gives the normal halt, and one that faults it leaves a record from whose kind and index the status is exactly
determined: UnrecognizedOpcode carries the address and the opcode byte, OutOfBounds the record's sub-kind, the
record's offending index, the address, and the opcode byte if there was one to fetch. -/
def Obligations.StoppingStepsHaveAStatus : Prop :=
  ∀ (m : Opcodes) (s t : State), stepWith m s = .next t →
    (t.run = .running → t.status = none) ∧
    (t.run = .halted → t.status = some .normalHalt) ∧
    (t.run = .faulted → ∃ r, t.fault = some r ∧ r.addr = s.pc ∧ r.opcode = s.memRead s.pc ∧
      (r.kind = .unrecognizedOpcode →
        ∃ b, s.memRead s.pc = some b ∧ t.status = some (.unrecognizedOpcode s.pc (some b))) ∧
      ∀ sub, r.kind = .outOfBounds sub → ∃ index, r.index = some index ∧
        t.status = some (.outOfBounds sub (some index) s.pc (s.memRead s.pc)))

/-- R22, R78: without fuel a run is where it started, a run that has stopped stays as it stopped however much more fuel
it is given, and while it has not stopped it takes one more step for one more unit of fuel. -/
def Obligations.StoppedRunsStayStopped : Prop :=
  ∀ (m : Opcodes) (fuel more : Nat) (s : State),
    runLoop m 0 s = s ∧
    ((runLoop m fuel s).run ≠ .running → runLoop m (fuel + more) s = runLoop m fuel s) ∧
    ((runLoop m fuel s).run = .running → ∀ t, stepWith m (runLoop m fuel s) = .next t →
      runLoop m (fuel + 1) s = t)

/-- R114: `run()` of an Idle core whose launch has its load makes run Running and changes nothing else, from every
such session. -/
def Obligations.RunStartsALoadedCore : Prop :=
  ∀ (r7 : Byte) (h : Session) (s : State), h.core = some s → s.run = .idle → h.loaded = true →
    ∃ h', hostCall r7 .run h = .next h' ∧ h'.core = some { s with run := .running } ∧ h'.loaded = true

/-! ## What one step and one call keep, from every state and not only from those a run reaches -/

/-- R41, R155 (by the stack tests of decisions D12 and D13; log entry 14): a step from ANY state that meets the
invariant and holds an image below its `lim` leaves a state that does so too, with the same `lim`. -/
def Obligations.EveryStepKeepsTheLoadedImage : Prop :=
  ∀ (m : Opcodes) (image : List Byte) (s t : State), s.Inv → s.lim = image.length → s.HoldsAt 0 image →
    stepWith m s = .next t → t.Inv ∧ t.lim = image.length ∧ t.HoldsAt 0 image

/-- R110 to R114, R117 (log entries 6, 7, 8): any host call that is answered, in ANY session whose core, where it
exists, meets the invariant, leaves a core that meets it. -/
def Obligations.EveryHostCallKeepsTheInvariant : Prop :=
  ∀ (r7 : Byte) (c : HostCall) (h h' : Session), (∀ s, h.core = some s → s.Inv) → hostCall r7 c h = .next h' →
    ∃ t, h'.core = some t ∧ t.Inv
end

