-- ==== Sys2Proof/Laws/Decode.lean ====
section
/-! SUPPORT. What decoding one opcode byte and its operands gives. -/

namespace Sys2Proof

/-- Under pairwise different opcode values the decoder reads each mnemonic's own byte as that mnemonic. -/
theorem decodeOpcode_opcodeOf {m : Opcodes} (h : m.Distinct) (mn : Mnemonic) :
    decodeOpcode m (opcodeOf m mn) = some mn := by
  simp only [Opcodes.Distinct, Opcodes.toList, List.nodup_cons, List.mem_cons, List.not_mem_nil, or_false,
    not_or] at h
  cases mn <;> simp_all [decodeOpcode, opcodeOf, Ne.symm, eq_comm]

/-- One test of the decoder's chain: it answers here, or the rest of the chain does. -/
theorem of_ite_some {α : Type} {p : Prop} [Decidable p] {x z : α} {y : Option α}
    (h : (if p then some x else y) = some z) : (p ∧ x = z) ∨ y = some z := by
  by_cases hp : p
  · rw [if_pos hp] at h; cases h; exact .inl ⟨hp, rfl⟩
  · rw [if_neg hp] at h; exact .inr h

/-- The byte of a recognised opcode is the one its mnemonic stands for, for any opcode values. -/
theorem opcodeOf_of_decodeOpcode {m : Opcodes} {ir : Byte} {mn : Mnemonic} (h : decodeOpcode m ir = some mn) :
    ir = opcodeOf m mn := by
  unfold decodeOpcode at h
  iterate 13
    rcases of_ite_some h with ⟨e, rfl⟩ | h
    · exact e
  cases h

theorem of_ite_none {α : Type} {p : Prop} [Decidable p] {x : α} {y : Option α}
    (h : (if p then some x else y) = none) : ¬ p ∧ y = none := by
  by_cases hp : p
  · rw [if_pos hp] at h; cases h
  · rw [if_neg hp] at h; exact ⟨hp, h⟩

theorem opcodeOf_mem (m : Opcodes) (mn : Mnemonic) : opcodeOf m mn ∈ m.toList := by
  cases mn <;> simp [opcodeOf, Opcodes.toList]

/-- A byte is unrecognised when it is none of the thirteen values (R56, R57). -/
theorem decodeOpcode_none {m : Opcodes} {b : Byte} : decodeOpcode m b = none ↔ b ∉ m.toList := by
  constructor
  · intro h hb
    unfold decodeOpcode at h
    simp only [Opcodes.toList, List.mem_cons, List.not_mem_nil, or_false] at hb
    iterate 13
      obtain ⟨hne, h⟩ := of_ite_none h
      first | exact hne hb | replace hb := hb.resolve_left hne
  · intro h
    cases hd : decodeOpcode m b with
    | none => rfl
    | some mn => exact absurd (opcodeOf_of_decodeOpcode hd ▸ opcodeOf_mem m mn) h

theorem assemble_mnemonic (mn : Mnemonic) (x y : Byte) : (assemble mn x y).mnemonic = mn := by
  cases mn <;> rfl

/-- A decoded instruction has the mnemonic of its opcode byte, and its operands are the bytes after it. -/
theorem decodeOperands_ok {mn : Mnemonic} {bs rest : List Byte} {i : Instr}
    (h : decodeOperands mn bs = .ok i rest) : i.mnemonic = mn ∧ bs = i.operands ++ rest := by
  cases mn <;> rcases bs with _ | ⟨x, _ | ⟨y, t⟩⟩ <;>
    simp_all [decodeOperands, Mnemonic.operandCount, Mnemonic.format, Format.operandCount, assemble] <;>
    (obtain ⟨rfl, rfl⟩ := h; exact ⟨rfl, rfl⟩)

theorem operands_length (i : Instr) : i.operands.length = i.mnemonic.operandCount := by
  cases i <;> rfl

end Sys2Proof
end

