-- ==== Sys2Proof/Laws/State.lean ====
section
/-! SUPPORT. What each update of State leaves in each field, and the register file's read after write. -/

namespace Sys2Proof.Machine

variable (s : State)

/-! setReg -/

@[simp] theorem State.setReg_regs (i : Fin 8) (v : Byte) : (s.setReg i v).regs = s.regs.set i v := rfl
@[simp] theorem State.setReg_pc (i : Fin 8) (v : Byte) : (s.setReg i v).pc = s.pc := rfl
@[simp] theorem State.setReg_fl (i : Fin 8) (v : Byte) : (s.setReg i v).fl = s.fl := rfl
@[simp] theorem State.setReg_sp (i : Fin 8) (v : Byte) : (s.setReg i v).sp = s.sp := rfl
@[simp] theorem State.setReg_lim (i : Fin 8) (v : Byte) : (s.setReg i v).lim = s.lim := rfl
@[simp] theorem State.setReg_run (i : Fin 8) (v : Byte) : (s.setReg i v).run = s.run := rfl
@[simp] theorem State.setReg_fault (i : Fin 8) (v : Byte) : (s.setReg i v).fault = s.fault := rfl
@[simp] theorem State.setReg_out (i : Fin 8) (v : Byte) : (s.setReg i v).out = s.out := rfl
@[simp] theorem State.setReg_mem (i : Fin 8) (v : Byte) : (s.setReg i v).mem = s.mem := rfl

/-! setPc -/

@[simp] theorem State.setPc_regs (t : Nat) : (s.setPc t).regs = s.regs := rfl
@[simp] theorem State.setPc_pc (t : Nat) : (s.setPc t).pc = t := rfl
@[simp] theorem State.setPc_fl (t : Nat) : (s.setPc t).fl = s.fl := rfl
@[simp] theorem State.setPc_sp (t : Nat) : (s.setPc t).sp = s.sp := rfl
@[simp] theorem State.setPc_lim (t : Nat) : (s.setPc t).lim = s.lim := rfl
@[simp] theorem State.setPc_run (t : Nat) : (s.setPc t).run = s.run := rfl
@[simp] theorem State.setPc_fault (t : Nat) : (s.setPc t).fault = s.fault := rfl
@[simp] theorem State.setPc_out (t : Nat) : (s.setPc t).out = s.out := rfl
@[simp] theorem State.setPc_mem (t : Nat) : (s.setPc t).mem = s.mem := rfl

/-! setFl -/

@[simp] theorem State.setFl_regs (v : Byte) : (s.setFl v).regs = s.regs := rfl
@[simp] theorem State.setFl_pc (v : Byte) : (s.setFl v).pc = s.pc := rfl
@[simp] theorem State.setFl_fl (v : Byte) : (s.setFl v).fl = v := rfl
@[simp] theorem State.setFl_sp (v : Byte) : (s.setFl v).sp = s.sp := rfl
@[simp] theorem State.setFl_lim (v : Byte) : (s.setFl v).lim = s.lim := rfl
@[simp] theorem State.setFl_run (v : Byte) : (s.setFl v).run = s.run := rfl
@[simp] theorem State.setFl_fault (v : Byte) : (s.setFl v).fault = s.fault := rfl
@[simp] theorem State.setFl_out (v : Byte) : (s.setFl v).out = s.out := rfl
@[simp] theorem State.setFl_mem (v : Byte) : (s.setFl v).mem = s.mem := rfl

/-! setSp -/

@[simp] theorem State.setSp_regs (v : Byte) : (s.setSp v).regs = s.regs := rfl
@[simp] theorem State.setSp_pc (v : Byte) : (s.setSp v).pc = s.pc := rfl
@[simp] theorem State.setSp_fl (v : Byte) : (s.setSp v).fl = s.fl := rfl
@[simp] theorem State.setSp_sp (v : Byte) : (s.setSp v).sp = v := rfl
@[simp] theorem State.setSp_lim (v : Byte) : (s.setSp v).lim = s.lim := rfl
@[simp] theorem State.setSp_run (v : Byte) : (s.setSp v).run = s.run := rfl
@[simp] theorem State.setSp_fault (v : Byte) : (s.setSp v).fault = s.fault := rfl
@[simp] theorem State.setSp_out (v : Byte) : (s.setSp v).out = s.out := rfl
@[simp] theorem State.setSp_mem (v : Byte) : (s.setSp v).mem = s.mem := rfl

/-! setRun -/

@[simp] theorem State.setRun_regs (r : RunState) : (s.setRun r).regs = s.regs := rfl
@[simp] theorem State.setRun_pc (r : RunState) : (s.setRun r).pc = s.pc := rfl
@[simp] theorem State.setRun_fl (r : RunState) : (s.setRun r).fl = s.fl := rfl
@[simp] theorem State.setRun_sp (r : RunState) : (s.setRun r).sp = s.sp := rfl
@[simp] theorem State.setRun_lim (r : RunState) : (s.setRun r).lim = s.lim := rfl
@[simp] theorem State.setRun_run (r : RunState) : (s.setRun r).run = r := rfl
@[simp] theorem State.setRun_fault (r : RunState) : (s.setRun r).fault = s.fault := rfl
@[simp] theorem State.setRun_out (r : RunState) : (s.setRun r).out = s.out := rfl
@[simp] theorem State.setRun_mem (r : RunState) : (s.setRun r).mem = s.mem := rfl

/-! setMem -/

@[simp] theorem State.setMem_regs (m : Memory) : (s.setMem m).regs = s.regs := rfl
@[simp] theorem State.setMem_pc (m : Memory) : (s.setMem m).pc = s.pc := rfl
@[simp] theorem State.setMem_fl (m : Memory) : (s.setMem m).fl = s.fl := rfl
@[simp] theorem State.setMem_sp (m : Memory) : (s.setMem m).sp = s.sp := rfl
@[simp] theorem State.setMem_lim (m : Memory) : (s.setMem m).lim = s.lim := rfl
@[simp] theorem State.setMem_run (m : Memory) : (s.setMem m).run = s.run := rfl
@[simp] theorem State.setMem_fault (m : Memory) : (s.setMem m).fault = s.fault := rfl
@[simp] theorem State.setMem_out (m : Memory) : (s.setMem m).out = s.out := rfl
@[simp] theorem State.setMem_mem (m : Memory) : (s.setMem m).mem = m := rfl

/-! emit -/

@[simp] theorem State.emit_regs (v : Byte) : (s.emit v).regs = s.regs := rfl
@[simp] theorem State.emit_pc (v : Byte) : (s.emit v).pc = s.pc := rfl
@[simp] theorem State.emit_fl (v : Byte) : (s.emit v).fl = s.fl := rfl
@[simp] theorem State.emit_sp (v : Byte) : (s.emit v).sp = s.sp := rfl
@[simp] theorem State.emit_lim (v : Byte) : (s.emit v).lim = s.lim := rfl
@[simp] theorem State.emit_run (v : Byte) : (s.emit v).run = s.run := rfl
@[simp] theorem State.emit_fault (v : Byte) : (s.emit v).fault = s.fault := rfl
@[simp] theorem State.emit_out (v : Byte) : (s.emit v).out = s.out ++ [v] := rfl
@[simp] theorem State.emit_mem (v : Byte) : (s.emit v).mem = s.mem := rfl

/-! passOperands -/

@[simp] theorem State.passOperands_regs (n : Nat) : (s.passOperands n).regs = s.regs := rfl
@[simp] theorem State.passOperands_pc (n : Nat) : (s.passOperands n).pc = s.pc + n := rfl
@[simp] theorem State.passOperands_fl (n : Nat) : (s.passOperands n).fl = s.fl := rfl
@[simp] theorem State.passOperands_sp (n : Nat) : (s.passOperands n).sp = s.sp := rfl
@[simp] theorem State.passOperands_lim (n : Nat) : (s.passOperands n).lim = s.lim := rfl
@[simp] theorem State.passOperands_run (n : Nat) : (s.passOperands n).run = s.run := rfl
@[simp] theorem State.passOperands_fault (n : Nat) : (s.passOperands n).fault = s.fault := rfl
@[simp] theorem State.passOperands_out (n : Nat) : (s.passOperands n).out = s.out := rfl
@[simp] theorem State.passOperands_mem (n : Nat) : (s.passOperands n).mem = s.mem := rfl

/-! raise -/

@[simp] theorem State.raise_regs (k : FaultKind) (x : Option Int) : (s.raise k x).regs = s.regs := rfl
@[simp] theorem State.raise_pc (k : FaultKind) (x : Option Int) : (s.raise k x).pc = s.pc := rfl
@[simp] theorem State.raise_fl (k : FaultKind) (x : Option Int) : (s.raise k x).fl = s.fl := rfl
@[simp] theorem State.raise_sp (k : FaultKind) (x : Option Int) : (s.raise k x).sp = s.sp := rfl
@[simp] theorem State.raise_lim (k : FaultKind) (x : Option Int) : (s.raise k x).lim = s.lim := rfl
@[simp] theorem State.raise_run (k : FaultKind) (x : Option Int) : (s.raise k x).run = .faulted := rfl
@[simp] theorem State.raise_fault (k : FaultKind) (x : Option Int) :
    (s.raise k x).fault = some { kind := k, addr := s.pc, opcode := s.fetchedOpcode, index := x } := rfl
@[simp] theorem State.raise_out (k : FaultKind) (x : Option Int) : (s.raise k x).out = s.out := rfl
@[simp] theorem State.raise_mem (k : FaultKind) (x : Option Int) : (s.raise k x).mem = s.mem := rfl

/-! load, loadFail, start -/

@[simp] theorem State.load_regs (image : List Byte) : (s.load image).regs = s.regs := rfl
@[simp] theorem State.load_pc (image : List Byte) : (s.load image).pc = s.pc := rfl
@[simp] theorem State.load_fl (image : List Byte) : (s.load image).fl = s.fl := rfl
@[simp] theorem State.load_sp (image : List Byte) : (s.load image).sp = s.sp := rfl
@[simp] theorem State.load_lim (image : List Byte) : (s.load image).lim = image.length := rfl
@[simp] theorem State.load_run (image : List Byte) : (s.load image).run = s.run := rfl
@[simp] theorem State.load_fault (image : List Byte) : (s.load image).fault = s.fault := rfl
@[simp] theorem State.load_out (image : List Byte) : (s.load image).out = s.out := rfl
@[simp] theorem State.load_mem (image : List Byte) : (s.load image).mem = s.mem.writeBytes Config.loadBase image := rfl

@[simp] theorem State.loadFail_regs (call : Nat) : (s.loadFail call).regs = s.regs := rfl
@[simp] theorem State.loadFail_pc (call : Nat) : (s.loadFail call).pc = s.pc := rfl
@[simp] theorem State.loadFail_fl (call : Nat) : (s.loadFail call).fl = s.fl := rfl
@[simp] theorem State.loadFail_sp (call : Nat) : (s.loadFail call).sp = s.sp := rfl
@[simp] theorem State.loadFail_lim (call : Nat) : (s.loadFail call).lim = s.lim := rfl
@[simp] theorem State.loadFail_run (call : Nat) : (s.loadFail call).run = .loadFailed := rfl
@[simp] theorem State.loadFail_fault (call : Nat) : (s.loadFail call).fault = s.fault := rfl
@[simp] theorem State.loadFail_out (call : Nat) : (s.loadFail call).out = s.out := rfl
@[simp] theorem State.loadFail_mem (call : Nat) : (s.loadFail call).mem = failedMemory call := rfl

@[simp] theorem State.start_regs : (s.start).regs = s.regs := rfl
@[simp] theorem State.start_pc : (s.start).pc = s.pc := rfl
@[simp] theorem State.start_fl : (s.start).fl = s.fl := rfl
@[simp] theorem State.start_sp : (s.start).sp = s.sp := rfl
@[simp] theorem State.start_lim : (s.start).lim = s.lim := rfl
@[simp] theorem State.start_run : (s.start).run = .running := rfl
@[simp] theorem State.start_fault : (s.start).fault = s.fault := rfl
@[simp] theorem State.start_out : (s.start).out = s.out := rfl
@[simp] theorem State.start_mem : (s.start).mem = s.mem := rfl

/-! Registers -/

@[simp] theorem Regs.get_set_same (x : Regs) (i : Fin 8) (v : Byte) : (x.set i v).get i = v := by
  fin_cases i <;> rfl

theorem Regs.get_set_other (x : Regs) (i j : Fin 8) (v : Byte) (h : j ≠ i) : (x.set i v).get j = x.get j := by
  fin_cases i <;> fin_cases j <;> first | rfl | exact absurd rfl h

theorem Regs.get_set (x : Regs) (i j : Fin 8) (v : Byte) :
    (x.set i v).get j = if j = i then v else x.get j := by
  split
  · next h => rw [h, Regs.get_set_same]
  · next h => exact Regs.get_set_other x i j v h

/-- Register files are equal when every register is. -/
theorem Regs.ext_get {x y : Regs} (h : ∀ i, x.get i = y.get i) : x = y := by
  cases x; cases y
  simp only [Regs.mk.injEq]
  exact ⟨h 0, h 1, h 2, h 3, h 4, h 5, h 6, h 7⟩

@[simp] theorem State.getReg_eq (i : Fin 8) : s.getReg i = s.regs.get i := rfl

/-! Bounded memory accesses on the state -/

theorem State.memRead_inBounds (a : Int) (h : inBounds a) : s.memRead a = some (s.mem.get a.toNat) := by
  simp [State.memRead, h]

theorem State.memRead_outOfBounds (a : Int) (h : ¬ inBounds a) : s.memRead a = none := by
  simp [State.memRead, h]

/-- A read sees only `mem`. -/
theorem State.memRead_congr {s t : State} (h : s.mem = t.mem) (a : Int) : s.memRead a = t.memRead a := by
  simp [State.memRead, h]

theorem State.memWrite_inBounds (a : Int) (v : Byte) (h : inBounds a) :
    s.memWrite a v = some (s.setMem (s.mem.write a.toNat v)) := by
  simp [State.memWrite, h]

theorem State.memWrite_outOfBounds (a : Int) (v : Byte) (h : ¬ inBounds a) : s.memWrite a v = none := by
  simp [State.memWrite, h]

end Sys2Proof.Machine
end

