-- ==== Sys2Proof/Laws/Memory.lean ====
section
/-! SUPPORT. Memory: read after write, and every operation keeps the canonical form. -/

namespace Sys2Proof.Machine

/-! Reads after writes -/

theorem Memory.get_cons (a : Nat) (v : Byte) (rest : Memory) (h : Memory.get rest a = Memory.unlisted) (b : Nat) :
    (Memory.cons a v rest).get b = if b = a then v else rest.get b := by
  unfold Memory.cons
  by_cases hv : v = Memory.unlisted
  · rw [if_pos hv]
    by_cases hb : b = a
    · rw [if_pos hb, hb, h, hv]
    · rw [if_neg hb]
  · rw [if_neg hv]
    by_cases hb : b = a
    · simp [hb, Memory.get]
    · simp [hb, Ne.symm hb, Memory.get]

/-- Below the first address of a canonical memory nothing is listed. -/
theorem Memory.get_below {m : Memory} {lo a : Nat} (h : Memory.wfFrom lo m = true) (ha : a < lo) :
    m.get a = Memory.unlisted := by
  induction m generalizing lo with
  | nil => rfl
  | cons kv rest ih =>
    obtain ⟨k, v⟩ := kv
    simp only [Memory.wfFrom, Bool.and_eq_true, decide_eq_true_eq] at h
    have hk : k ≠ a := by omega
    simp only [Memory.get, hk, if_false]
    exact ih h.2 (by omega)

theorem Memory.get_put {m : Memory} {lo : Nat} (h : Memory.wfFrom lo m = true) (a : Nat) (v : Byte) (b : Nat) :
    (m.put a v).get b = if b = a then v else m.get b := by
  induction m generalizing lo with
  | nil => exact Memory.get_cons a v [] rfl b
  | cons kw rest ih =>
    obtain ⟨k, w⟩ := kw
    have h' := h
    simp only [Memory.wfFrom, Bool.and_eq_true, decide_eq_true_eq] at h
    unfold Memory.put
    by_cases h1 : a < k
    · simp only [h1, if_true]
      refine Memory.get_cons a v _ ?_ b
      have : k ≠ a := by omega
      simp only [Memory.get, this, if_false]
      exact Memory.get_below h.2 (by omega)
    · by_cases h2 : a = k
      · subst h2
        simp only [h1, if_false, if_true]
        rw [Memory.get_cons a v rest (Memory.get_below h.2 (by omega)) b]
        by_cases hb : b = a
        · simp [hb]
        · simp [hb, Ne.symm hb, Memory.get]
      · simp only [h1, h2, if_false, Memory.get]
        by_cases hb : k = b
        · have : b ≠ a := by omega
          simp [hb, this]
        · simp only [hb, if_false]
          exact ih h.2

/-- A read after a write: the byte written at its address, what was there before at any other. -/
theorem Memory.get_write {m : Memory} (h : m.wf = true) {a : Nat} (ha : a < 256) (v : Byte) (b : Nat) :
    (m.write a v).get b = if b = a then v else m.get b := by
  simp only [Memory.write, Config.memSize, ha, if_true]
  exact Memory.get_put h a v b

/-! A write leaves every OTHER byte alone in any memory, canonical or not. -/

theorem Memory.get_cons_other (a : Nat) (v : Byte) (rest : Memory) {b : Nat} (h : b ≠ a) :
    (Memory.cons a v rest).get b = rest.get b := by
  unfold Memory.cons
  split
  · rfl
  · simp [Memory.get, Ne.symm h]

theorem Memory.get_put_other (m : Memory) (a : Nat) (v : Byte) {b : Nat} (h : b ≠ a) :
    (m.put a v).get b = m.get b := by
  induction m with
  | nil => exact Memory.get_cons_other a v [] h
  | cons kw rest ih =>
    obtain ⟨k, w⟩ := kw
    unfold Memory.put
    split
    · exact Memory.get_cons_other a v _ h
    · split
      · next h2 => rw [Memory.get_cons_other a v rest h]; simp [Memory.get, ← h2, Ne.symm h]
      · simp only [Memory.get]; rw [ih]

theorem Memory.get_write_other (m : Memory) (a : Nat) (v : Byte) {b : Nat} (h : b ≠ a) :
    (m.write a v).get b = m.get b := by
  unfold Memory.write
  split
  · exact Memory.get_put_other m a v h
  · rfl

/-! The canonical form is kept -/

theorem Memory.wfFrom_mono {m : Memory} {lo lo' : Nat} (h : Memory.wfFrom lo m = true) (hl : lo' ≤ lo) :
    Memory.wfFrom lo' m = true := by
  cases m with
  | nil => rfl
  | cons kv rest =>
    obtain ⟨k, v⟩ := kv
    simp only [Memory.wfFrom, Bool.and_eq_true, decide_eq_true_eq] at h ⊢
    exact ⟨⟨⟨by omega, h.1.1.2⟩, h.1.2⟩, h.2⟩

theorem Memory.wfFrom_cons {a lo : Nat} (v : Byte) {rest : Memory} (hl : lo ≤ a) (ha : a < 256)
    (h : Memory.wfFrom (a + 1) rest = true) : Memory.wfFrom lo (Memory.cons a v rest) = true := by
  unfold Memory.cons
  split
  · exact Memory.wfFrom_mono h (by omega)
  · next hv =>
    simp only [Memory.wfFrom, Bool.and_eq_true, decide_eq_true_eq, Config.memSize]
    exact ⟨⟨⟨hl, decide_eq_true ha⟩, hv⟩, h⟩

theorem Memory.wfFrom_put {m : Memory} {lo a : Nat} (h : Memory.wfFrom lo m = true) (hl : lo ≤ a) (ha : a < 256)
    (v : Byte) : Memory.wfFrom lo (m.put a v) = true := by
  induction m generalizing lo with
  | nil => exact Memory.wfFrom_cons v hl ha rfl
  | cons kw rest ih =>
    obtain ⟨k, w⟩ := kw
    have h' := h
    simp only [Memory.wfFrom, Bool.and_eq_true, decide_eq_true_eq] at h
    unfold Memory.put
    split
    · next h1 =>
      refine Memory.wfFrom_cons v hl ha ?_
      simp only [Memory.wfFrom, Bool.and_eq_true, decide_eq_true_eq]
      exact ⟨⟨⟨by omega, h.1.1.2⟩, h.1.2⟩, h.2⟩
    · split
      · next h2 => subst h2; exact Memory.wfFrom_cons v hl ha h.2
      · next h1 h2 =>
        simp only [Memory.wfFrom, Bool.and_eq_true, decide_eq_true_eq]
        exact ⟨⟨⟨h.1.1.1, h.1.1.2⟩, h.1.2⟩, ih h.2 (by omega)⟩

theorem Memory.wf_write {m : Memory} (h : m.wf = true) (a : Nat) (v : Byte) : (m.write a v).wf = true := by
  unfold Memory.write
  split
  · next ha => exact Memory.wfFrom_put h (Nat.zero_le a) ha v
  · exact h

theorem Memory.wf_writeBytes {m : Memory} (h : m.wf = true) (a : Nat) (bs : List Byte) :
    (m.writeBytes a bs).wf = true := by
  induction bs generalizing m a with
  | nil => exact h
  | cons b rest ih => exact ih (Memory.wf_write h a b) (a + 1)

theorem Memory.wf_reset (r7 : Byte) : (State.resetWith r7).mem.wf = true := rfl

theorem Memory.wf_failedMemory (call : Nat) : (failedMemory call).wf = true := by
  unfold failedMemory
  exact Memory.wf_writeBytes (m := []) rfl 0 _

theorem State.memWrite_wf {s t : State} {a : Int} {v : Byte} (h : s.mem.wf = true) (hw : s.memWrite a v = some t) :
    t.mem.wf = true := by
  unfold State.memWrite at hw
  split at hw
  · cases hw; exact Memory.wf_write h _ v
  · cases hw

/-! A written image reads back (R112) -/

theorem Memory.get_writeBytes_outside (m : Memory) (a : Nat) (bs : List Byte) {b : Nat}
    (h : b < a ∨ a + bs.length ≤ b) : (m.writeBytes a bs).get b = m.get b := by
  induction bs generalizing m a with
  | nil => rfl
  | cons x rest ih =>
    simp only [List.length_cons] at h
    unfold Memory.writeBytes
    rw [ih (m.write a x) (a + 1) (by omega)]
    exact Memory.get_write_other m a x (by omega)

theorem Memory.get_writeBytes_inside {m : Memory} (hm : m.wf = true) (a : Nat) (bs : List Byte)
    (hb : a + bs.length ≤ 256) {k : Nat} (hk : k < bs.length) : (m.writeBytes a bs).get (a + k) = bs[k] := by
  induction bs generalizing m a k with
  | nil => exact absurd hk (by simp)
  | cons x rest ih =>
    simp only [List.length_cons] at hb hk
    unfold Memory.writeBytes
    cases k with
    | zero =>
      rw [Memory.get_writeBytes_outside _ _ _ (by omega), Memory.get_write hm (by omega)]
      simp
    | succ k =>
      have := ih (Memory.wf_write hm a x) (a + 1) (by omega) (k := k) (by omega)
      rw [show a + (k + 1) = a + 1 + k by omega, this]
      rfl

/-! Equal reads make equal memories: the canonical form has one list for each contents. -/

theorem Memory.ext_get {m n : Memory} {lo : Nat} (hm : Memory.wfFrom lo m = true) (hn : Memory.wfFrom lo n = true)
    (h : ∀ a, m.get a = n.get a) : m = n := by
  induction m generalizing lo n with
  | nil =>
    cases n with
    | nil => rfl
    | cons kv rest =>
      obtain ⟨k, v⟩ := kv
      simp only [Memory.wfFrom, Bool.and_eq_true, decide_eq_true_eq] at hn
      have hk := h k
      simp only [Memory.get, if_true] at hk
      exact absurd hk.symm hn.1.2
  | cons kv rest ih =>
    obtain ⟨k, v⟩ := kv
    simp only [Memory.wfFrom, Bool.and_eq_true, decide_eq_true_eq] at hm
    cases n with
    | nil =>
      have hk := h k
      simp only [Memory.get, if_true] at hk
      exact absurd hk hm.1.2
    | cons lw rest' =>
      obtain ⟨l, w⟩ := lw
      simp only [Memory.wfFrom, Bool.and_eq_true, decide_eq_true_eq] at hn
      have hkl : k = l := by
        rcases Nat.lt_trichotomy k l with hlt | heq | hgt
        · have hz : Memory.get ((l, w) :: rest') k = Memory.unlisted := by
            simp only [Memory.get, show l ≠ k by omega, if_false]
            exact Memory.get_below hn.2 (by omega)
          exact absurd ((if_pos rfl).symm.trans ((h k).trans hz)) hm.1.2
        · exact heq
        · have hz : Memory.get ((k, v) :: rest) l = Memory.unlisted := by
            simp only [Memory.get, show k ≠ l by omega, if_false]
            exact Memory.get_below hm.2 (by omega)
          exact absurd ((if_pos rfl).symm.trans ((h l).symm.trans hz)) hn.1.2
      subst hkl
      have hvw : v = w := by simpa [Memory.get] using h k
      subst hvw
      have hrest : rest = rest' := by
        refine ih hm.2 hn.2 fun a => ?_
        by_cases ha : k = a
        · subst ha; rw [Memory.get_below hm.2 (by omega), Memory.get_below hn.2 (by omega)]
        · simpa [Memory.get, ha] using h a
      rw [hrest]

end Sys2Proof.Machine
end

