-- ==== Sys2Proof/Laws/Exec.lean ====
section
/-! SUPPORT. One lemma for each shared operation: everything it can do. -/

namespace Sys2Proof.Machine

/-! Register operands (R52) -/

theorem withReg_valid {b : Byte} (h : b.toNat < 8) (k : Fin 8 → Signal) : withReg b k = k ⟨b.toNat, h⟩ := by
  simp [withReg, regIndex, h]

theorem withReg_invalid {b : Byte} (h : 8 ≤ b.toNat) (k : Fin 8 → Signal) :
    withReg b k = .raise .regIndex b.toNat := by
  simp [withReg, regIndex, Nat.not_lt.mpr h]

/-- What a register operand can lead to. -/
theorem withReg_cases (b : Byte) (k : Fin 8 → Signal) :
    (∃ h : b.toNat < 8, withReg b k = k ⟨b.toNat, h⟩) ∨
      (8 ≤ b.toNat ∧ withReg b k = .raise .regIndex b.toNat) := by
  by_cases h : b.toNat < 8
  · exact .inl ⟨h, withReg_valid h k⟩
  · exact .inr ⟨by omega, withReg_invalid (by omega) k⟩

/-! The stack (R90) -/

/-- The stack pointer after a push. -/
theorem ofInt_pushSlot {s : State} (h : s.stackOK s.pushSlot) : BitVec.ofInt 8 s.pushSlot = s.sp - 1 := by
  have : 1 ≤ s.sp.toNat := by
    have := h.1; unfold State.pushSlot at this; omega
  apply BitVec.eq_of_toNat_eq
  have hlt := s.sp.isLt
  have hone : (1 : Byte).toNat = 1 := rfl
  simp only [State.pushSlot, BitVec.toNat_ofInt, BitVec.toNat_sub, hone]
  omega

theorem pushByte_ok {s : State} (h : s.stackOK s.pushSlot) (v : Byte) (k : State → Signal) :
    pushByte v s k = k ((s.setMem (s.mem.write (s.sp.toNat - 1) v)).setSp (s.sp - 1)) := by
  have hb : inBounds s.pushSlot := ⟨by have := h.1; omega, h.2⟩
  have hn : s.pushSlot.toNat = s.sp.toNat - 1 := by unfold State.pushSlot; omega
  simp only [pushByte, if_pos h, State.memWrite_inBounds s _ v hb, ofInt_pushSlot h, hn]

theorem pushByte_full {s : State} (h : ¬ s.stackOK s.pushSlot) (v : Byte) (k : State → Signal) :
    pushByte v s k = .raise .stack s.pushSlot := by
  simp only [pushByte, if_neg h]

/-- The stack pointer after a pop. -/
theorem ofInt_popSlot {s : State} (h : s.sp.toNat < 255) : BitVec.ofInt 8 (s.popSlot + 1) = s.sp + 1 := by
  apply BitVec.eq_of_toNat_eq
  have hone : (1 : Byte).toNat = 1 := rfl
  simp only [State.popSlot, BitVec.toNat_ofInt, BitVec.toNat_add, hone]
  omega

theorem popByte_ok {s : State} (h : s.lim ≤ s.sp.toNat) (h' : s.sp.toNat < 255) (k : Byte → State → Signal) :
    popByte s k = k (s.mem.get s.sp.toNat) (s.setSp (s.sp + 1)) := by
  have h1 : s.stackOK s.popSlot := by unfold State.stackOK State.popSlot; omega
  have h2 : s.popSlot + 1 ≤ 255 := by unfold State.popSlot; omega
  have hb : inBounds s.popSlot := by unfold inBounds State.popSlot; omega
  have hn : s.popSlot.toNat = s.sp.toNat := by unfold State.popSlot; omega
  simp only [popByte, if_pos h1, if_pos h2, State.memRead_inBounds s _ hb, hn, ofInt_popSlot h']

theorem popByte_below {s : State} (h : s.sp.toNat < s.lim) (k : Byte → State → Signal) :
    popByte s k = .raise .stack s.sp.toNat := by
  have h1 : ¬ s.stackOK s.popSlot := by unfold State.stackOK State.popSlot; omega
  simp only [popByte, if_neg h1]; rfl

theorem popByte_top {s : State} (h : s.lim ≤ s.sp.toNat) (h' : s.sp.toNat = 255) (k : Byte → State → Signal) :
    popByte s k = .raise .stack 256 := by
  have h1 : s.stackOK s.popSlot := by unfold State.stackOK State.popSlot; omega
  have h2 : ¬ s.popSlot + 1 ≤ 255 := by unfold State.popSlot; omega
  simp only [popByte, if_pos h1, if_neg h2]
  simp [State.popSlot, h']

/-! Finishing a step -/

theorem perform_eq (mn : Mnemonic) (body : State → Signal) (s : State) :
    perform mn body s = .next (finish s (body (s.passOperands mn.operandCount))) := rfl

/-- If an instruction answers a next state, it is the finished signal of its execute part. -/
theorem perform_next {mn : Mnemonic} {body : State → Signal} {s t : State} (h : perform mn body s = .next t) :
    t = finish s (body (s.passOperands mn.operandCount)) := by
  cases h; rfl

@[simp] theorem finish_advance (s t : State) : finish s (.advance t) = t.setPc (t.pc + 1) := rfl
@[simp] theorem finish_jump (s t : State) (a : Byte) : finish s (.jump t a) = t.setPc a.toNat := rfl
@[simp] theorem finish_halt (s t : State) : finish s (.halt t) = t.setRun .halted := rfl
@[simp] theorem finish_raise (s : State) (sub : BoundsKind) (x : Int) :
    finish s (.raise sub x) = s.raise (.outOfBounds sub) (some x) := rfl

/-- What one instruction can do to the state, its guards included: it leaves the state its rule gives, or it raises
a bounds fault. -/
inductive Effect (i : Instr) (s : State) : State → Prop where
  | ldi (r v : Byte) (h : r.toNat < 8) : i = .ldi r v →
      Effect i s ((s.setReg ⟨r.toNat, h⟩ v).setPc (s.pc + 3))
  | prn (r : Byte) (h : r.toNat < 8) : i = .prn r →
      Effect i s ((s.emit (s.regs.get ⟨r.toNat, h⟩)).setPc (s.pc + 2))
  | alu (op : Byte → Byte → AluResult) (a b : Byte) (ha : a.toNat < 8) (hb : b.toNat < 8) :
      (i = .add a b ∧ op = aluAdd) ∨ (i = .mul a b ∧ op = aluMul) ∨ (i = .cmp a b ∧ op = aluCmp) →
      Effect i s ((s.applyAlu ⟨a.toNat, ha⟩
        (op (s.regs.get ⟨a.toNat, ha⟩) (s.regs.get ⟨b.toNat, hb⟩))).setPc (s.pc + 3))
  | push (r : Byte) (h : r.toNat < 8) : i = .push r → s.stackOK s.pushSlot →
      Effect i s (((s.setMem (s.mem.write (s.sp.toNat - 1) (s.regs.get ⟨r.toNat, h⟩))).setSp (s.sp - 1)).setPc
        (s.pc + 2))
  | pop (r : Byte) (h : r.toNat < 8) : i = .pop r → s.lim ≤ s.sp.toNat → s.sp.toNat < 255 →
      Effect i s (((s.setSp (s.sp + 1)).setReg ⟨r.toNat, h⟩ (s.mem.get s.sp.toNat)).setPc (s.pc + 2))
  | call (r : Byte) (h : r.toNat < 8) : i = .call r → s.stackOK s.pushSlot →
      Effect i s (((s.setMem (s.mem.write (s.sp.toNat - 1) (BitVec.ofNat 8 (s.pc + 1)))).setSp (s.sp - 1)).setPc
        (s.regs.get ⟨r.toNat, h⟩).toNat)
  | ret : i = .ret → s.lim ≤ s.sp.toNat → s.sp.toNat < 255 →
      Effect i s ((s.setSp (s.sp + 1)).setPc ((s.mem.get s.sp.toNat).toNat + 1))
  | jump (r : Byte) (h : r.toNat < 8) :
      i = .jump r ∨ (i = .jeq r ∧ jeqTaken s.fl = true) ∨ (i = .jne r ∧ jneTaken s.fl = true) →
      Effect i s (s.setPc (s.regs.get ⟨r.toNat, h⟩).toNat)
  | fallThrough (r : Byte) (h : r.toNat < 8) :
      (i = .jeq r ∧ jeqTaken s.fl = false) ∨ (i = .jne r ∧ jneTaken s.fl = false) →
      Effect i s (s.setPc (s.pc + 2))
  | hlt : i = .hlt → Effect i s (s.setRun .halted)
  | badRegister (b : Byte) : i.regOperands.find? (fun b => !validRegIndex b) = some b →
      Effect i s (s.raise (.outOfBounds .regIndex) (some b.toNat))
  | stackFull : (∃ r, i = .push r ∨ i = .call r) → i.wellFormed = true → ¬ s.stackOK s.pushSlot →
      Effect i s (s.raise (.outOfBounds .stack) (some s.pushSlot))
  | stackBelowLimit : (∃ r, i = .pop r) ∨ i = .ret → i.wellFormed = true → s.sp.toNat < s.lim →
      Effect i s (s.raise (.outOfBounds .stack) (some s.sp.toNat))
  | stackAtTop : (∃ r, i = .pop r) ∨ i = .ret → i.wellFormed = true → s.lim ≤ s.sp.toNat → s.sp.toNat = 255 →
      Effect i s (s.raise (.outOfBounds .stack) (some 256))

theorem wellFormed_one {i : Instr} {r : Byte} (hi : i.regOperands = [r]) (h : r.toNat < 8) : i.wellFormed = true := by
  simp [Instr.wellFormed, hi, validRegIndex, h]

theorem find_one {i : Instr} {r : Byte} (hi : i.regOperands = [r]) (h : 8 ≤ r.toNat) :
    i.regOperands.find? (fun b => !validRegIndex b) = some r := by
  have : ¬ r.toNat < 8 := by omega
  simp [hi, validRegIndex, this]

/-- The pop of POP and RET has three outcomes. -/
theorem popByte_cases (s : State) (k : Byte → State → Signal) :
    (s.lim ≤ s.sp.toNat ∧ s.sp.toNat < 255 ∧ popByte s k = k (s.mem.get s.sp.toNat) (s.setSp (s.sp + 1))) ∨
      (s.sp.toNat < s.lim ∧ popByte s k = .raise .stack s.sp.toNat) ∨
      (s.lim ≤ s.sp.toNat ∧ s.sp.toNat = 255 ∧ popByte s k = .raise .stack 256) := by
  have hlt := s.sp.isLt
  by_cases h : s.sp.toNat < s.lim
  · exact .inr (.inl ⟨h, popByte_below h k⟩)
  · by_cases h' : s.sp.toNat = 255
    · exact .inr (.inr ⟨by omega, h', popByte_top (by omega) h' k⟩)
    · exact .inl ⟨by omega, by omega, popByte_ok (by omega) (by omega) k⟩

theorem aluBody_cases (op : Byte → Byte → AluResult) (a b : Byte) (t : State) :
    (∃ (ha : a.toNat < 8) (hb : b.toNat < 8), aluBody op a b t =
        .advance (t.applyAlu ⟨a.toNat, ha⟩ (op (t.regs.get ⟨a.toNat, ha⟩) (t.regs.get ⟨b.toNat, hb⟩)))) ∨
      (∃ c, [a, b].find? (fun b => !validRegIndex b) = some c ∧ aluBody op a b t = .raise .regIndex c.toNat) := by
  by_cases ha : a.toNat < 8
  · by_cases hb : b.toNat < 8
    · exact .inl ⟨ha, hb, by simp only [aluBody, withReg_valid ha, withReg_valid hb, State.getReg_eq]⟩
    · refine .inr ⟨b, by simp [validRegIndex, ha, hb], ?_⟩
      simp only [aluBody, withReg_valid ha, withReg_invalid (Nat.not_lt.mp hb)]
  · refine .inr ⟨a, by simp [validRegIndex, ha], ?_⟩
    simp only [aluBody, withReg_invalid (Nat.not_lt.mp ha)]

/-- `applyAlu` touches registers and flags only, so the counter may be moved before or after it. -/
theorem applyAlu_setPc (s : State) (i : Fin 8) (r : AluResult) (p q : Nat) :
    ((s.setPc p).applyAlu i r).setPc q = (s.applyAlu i r).setPc q := by
  rcases r with ⟨_ | _, _ | _⟩ <;> rfl

@[simp] theorem applyAlu_pc (s : State) (i : Fin 8) (r : AluResult) : (s.applyAlu i r).pc = s.pc := by
  rcases r with ⟨_ | _, _ | _⟩ <;> rfl

/-- Every instruction gives a next state: a fault of the core is one too (R76). -/
theorem exec_isNext (i : Instr) (s : State) : ∃ t, exec i s = .next t := by
  cases i <;> exact ⟨_, rfl⟩

theorem branchBody_cases (taken : Byte → Bool) (r : Byte) (t : State) :
    (∃ h : r.toNat < 8, taken t.fl = true ∧ branchBody taken r t = .jump t (t.regs.get ⟨r.toNat, h⟩)) ∨
      (r.toNat < 8 ∧ taken t.fl = false ∧ branchBody taken r t = .advance t) ∨
      (8 ≤ r.toNat ∧ branchBody taken r t = .raise .regIndex r.toNat) := by
  unfold branchBody
  rcases withReg_cases r (fun i => if taken t.fl then Signal.jump t (t.getReg i) else .advance t) with ⟨h, e⟩ | ⟨h, e⟩
  · cases ht : taken t.fl
    · exact .inr (.inl ⟨h, rfl, by simp only [ht] at e; exact e⟩)
    · exact .inl ⟨h, rfl, by simp only [ht] at e; exact e⟩
  · exact .inr (.inr ⟨h, e⟩)

theorem next_inj {x t : State} (h : (.next x : Host.Outcome State Fault Refusal) = .next t) : t = x := by
  cases h; rfl

theorem Effect.of_eq {i : Instr} {s t u : State} (h : t = u) (e : Effect i s u) : Effect i s t := h ▸ e

/-- THE inversion lemma of the meanings: whatever `exec` answers is one of the listed effects. -/
theorem exec_effect {i : Instr} {s t : State} (h : exec i s = .next t) : Effect i s t := by
  cases i with
  | ldi r v =>
    rcases withReg_cases r (fun i => Signal.advance ((s.passOperands 2).setReg i v)) with ⟨hr, e⟩ | ⟨hr, e⟩
    · exact .of_eq ((next_inj h).trans (congrArg (finish s) e)) (Effect.ldi r v hr rfl)
    · exact .of_eq ((next_inj h).trans (congrArg (finish s) e)) (Effect.badRegister r (find_one rfl hr))
  | prn r =>
    rcases withReg_cases r (fun i => Signal.advance ((s.passOperands 1).emit ((s.passOperands 1).getReg i)))
      with ⟨hr, e⟩ | ⟨hr, e⟩
    · exact .of_eq ((next_inj h).trans (congrArg (finish s) e)) (Effect.prn r hr rfl)
    · exact .of_eq ((next_inj h).trans (congrArg (finish s) e)) (Effect.badRegister r (find_one rfl hr))
  | add a b =>
    rcases aluBody_cases aluAdd a b (s.passOperands 2) with ⟨ha, hb, e⟩ | ⟨c, hc, e⟩
    · exact .of_eq ((next_inj h).trans (congrArg (finish s) e)) (Effect.alu aluAdd a b ha hb (.inl ⟨rfl, rfl⟩))
    · exact .of_eq ((next_inj h).trans (congrArg (finish s) e)) (Effect.badRegister c hc)
  | mul a b =>
    rcases aluBody_cases aluMul a b (s.passOperands 2) with ⟨ha, hb, e⟩ | ⟨c, hc, e⟩
    · exact .of_eq ((next_inj h).trans (congrArg (finish s) e)) (Effect.alu aluMul a b ha hb (.inr (.inl ⟨rfl, rfl⟩)))
    · exact .of_eq ((next_inj h).trans (congrArg (finish s) e)) (Effect.badRegister c hc)
  | cmp a b =>
    rcases aluBody_cases aluCmp a b (s.passOperands 2) with ⟨ha, hb, e⟩ | ⟨c, hc, e⟩
    · exact .of_eq ((next_inj h).trans (congrArg (finish s) e)) (Effect.alu aluCmp a b ha hb (.inr (.inr ⟨rfl, rfl⟩)))
    · exact .of_eq ((next_inj h).trans (congrArg (finish s) e)) (Effect.badRegister c hc)
  | push r =>
    rcases withReg_cases r (fun i => pushByte ((s.passOperands 1).getReg i) (s.passOperands 1) .advance)
      with ⟨hr, e⟩ | ⟨hr, e⟩
    · by_cases hs : s.stackOK s.pushSlot
      · exact .of_eq ((next_inj h).trans (congrArg (finish s) (e.trans (pushByte_ok (s := s.passOperands 1) hs _ _))))
          (Effect.push r hr rfl hs)
      · exact .of_eq ((next_inj h).trans (congrArg (finish s) (e.trans (pushByte_full (s := s.passOperands 1) hs _ _))))
          (Effect.stackFull ⟨r, .inl rfl⟩ (wellFormed_one rfl hr) hs)
    · exact .of_eq ((next_inj h).trans (congrArg (finish s) e)) (Effect.badRegister r (find_one rfl hr))
  | pop r =>
    rcases withReg_cases r (fun i => popByte (s.passOperands 1) fun v u => .advance (u.setReg i v))
      with ⟨hr, e⟩ | ⟨hr, e⟩
    · rcases popByte_cases (s.passOperands 1) (fun v u => .advance (u.setReg ⟨r.toNat, hr⟩ v))
        with ⟨h1, h2, e'⟩ | ⟨h1, e'⟩ | ⟨h1, h2, e'⟩
      · exact .of_eq ((next_inj h).trans (congrArg (finish s) (e.trans e'))) (Effect.pop r hr rfl h1 h2)
      · exact .of_eq ((next_inj h).trans (congrArg (finish s) (e.trans e')))
          (Effect.stackBelowLimit (.inl ⟨r, rfl⟩) (wellFormed_one rfl hr) h1)
      · exact .of_eq ((next_inj h).trans (congrArg (finish s) (e.trans e')))
          (Effect.stackAtTop (.inl ⟨r, rfl⟩) (wellFormed_one rfl hr) h1 h2)
    · exact .of_eq ((next_inj h).trans (congrArg (finish s) e)) (Effect.badRegister r (find_one rfl hr))
  | call r =>
    rcases withReg_cases r (fun i => pushByte (returnByte (s.passOperands 1)) (s.passOperands 1)
      fun u => .jump u (u.getReg i)) with ⟨hr, e⟩ | ⟨hr, e⟩
    · by_cases hs : s.stackOK s.pushSlot
      · exact .of_eq ((next_inj h).trans (congrArg (finish s) (e.trans (pushByte_ok (s := s.passOperands 1) hs _ _))))
          (Effect.call r hr rfl hs)
      · exact .of_eq ((next_inj h).trans (congrArg (finish s) (e.trans (pushByte_full (s := s.passOperands 1) hs _ _))))
          (Effect.stackFull ⟨r, .inr rfl⟩ (wellFormed_one rfl hr) hs)
    · exact .of_eq ((next_inj h).trans (congrArg (finish s) e)) (Effect.badRegister r (find_one rfl hr))
  | ret =>
    rcases popByte_cases (s.passOperands 0) (fun v u => .advance (u.setPc v.toNat))
      with ⟨h1, h2, e'⟩ | ⟨h1, e'⟩ | ⟨h1, h2, e'⟩
    · exact .of_eq ((next_inj h).trans (congrArg (finish s) e')) (Effect.ret rfl h1 h2)
    · exact .of_eq ((next_inj h).trans (congrArg (finish s) e')) (Effect.stackBelowLimit (.inr rfl) rfl h1)
    · exact .of_eq ((next_inj h).trans (congrArg (finish s) e')) (Effect.stackAtTop (.inr rfl) rfl h1 h2)
  | jump r =>
    rcases withReg_cases r (fun i => Signal.jump (s.passOperands 1) ((s.passOperands 1).getReg i))
      with ⟨hr, e⟩ | ⟨hr, e⟩
    · exact .of_eq ((next_inj h).trans (congrArg (finish s) e)) (Effect.jump r hr (.inl rfl))
    · exact .of_eq ((next_inj h).trans (congrArg (finish s) e)) (Effect.badRegister r (find_one rfl hr))
  | jeq r =>
    rcases branchBody_cases jeqTaken r (s.passOperands 1) with ⟨hr, ht, e⟩ | ⟨hr, ht, e⟩ | ⟨hr, e⟩
    · exact .of_eq ((next_inj h).trans (congrArg (finish s) e)) (Effect.jump r hr (.inr (.inl ⟨rfl, ht⟩)))
    · exact .of_eq ((next_inj h).trans (congrArg (finish s) e)) (Effect.fallThrough r hr (.inl ⟨rfl, ht⟩))
    · exact .of_eq ((next_inj h).trans (congrArg (finish s) e)) (Effect.badRegister r (find_one rfl hr))
  | jne r =>
    rcases branchBody_cases jneTaken r (s.passOperands 1) with ⟨hr, ht, e⟩ | ⟨hr, ht, e⟩ | ⟨hr, e⟩
    · exact .of_eq ((next_inj h).trans (congrArg (finish s) e)) (Effect.jump r hr (.inr (.inr ⟨rfl, ht⟩)))
    · exact .of_eq ((next_inj h).trans (congrArg (finish s) e)) (Effect.fallThrough r hr (.inr ⟨rfl, ht⟩))
    · exact .of_eq ((next_inj h).trans (congrArg (finish s) e)) (Effect.badRegister r (find_one rfl hr))
  | hlt =>
    exact .of_eq (next_inj h) (Effect.hlt rfl)

theorem branchBody_valid {taken : Byte → Bool} {r : Byte} {t : State} (h : r.toNat < 8) :
    branchBody taken r t = if taken t.fl then .jump t (t.regs.get ⟨r.toNat, h⟩) else .advance t := by
  rw [branchBody, withReg_valid h]; rfl

theorem find_bad_reg {r b : Byte} (h : [r].find? (fun b => !validRegIndex b) = some b) : r = b ∧ 8 ≤ r.toNat := by
  by_cases hr : r.toNat < 8
  · simp [validRegIndex, hr] at h
  · exact ⟨by simpa [validRegIndex, hr] using h, by omega⟩

theorem valid_of_wellFormed {i : Instr} {r : Byte} (hi : i.regOperands = [r]) (h : i.wellFormed = true) :
    r.toNat < 8 := by
  simpa [Instr.wellFormed, hi, validRegIndex] using h

theorem aluBody_bad {op : Byte → Byte → AluResult} {a b c : Byte} {t : State}
    (h : [a, b].find? (fun b => !validRegIndex b) = some c) : aluBody op a b t = .raise .regIndex c.toNat := by
  rcases aluBody_cases op a b t with ⟨ha, hb, _⟩ | ⟨d, hd, e⟩
  · simp [validRegIndex, ha, hb] at h
  · rw [h] at hd; cases hd; exact e

/-- The inversion lemma loses nothing: each listed effect is what `exec` answers. -/
theorem exec_of_effect {i : Instr} {s t : State} (h : Effect i s t) : exec i s = .next t := by
  cases h with
  | ldi r v h hi => subst hi; simp only [exec, execLdi, perform_eq, withReg_valid h]; rfl
  | prn r h hi => subst hi; simp only [exec, execPrn, perform_eq, withReg_valid h]; rfl
  | alu op a b ha hb hi =>
    rcases hi with ⟨rfl, rfl⟩ | ⟨rfl, rfl⟩ | ⟨rfl, rfl⟩ <;>
      simp only [exec, execAdd, execMul, execCmp, perform_eq, aluBody, withReg_valid ha, withReg_valid hb] <;> rfl
  | push r h hi hs =>
    subst hi
    simp only [exec, execPush, perform_eq, withReg_valid h]
    rw [pushByte_ok (s := s.passOperands _) hs]; rfl
  | pop r h hi h1 h2 =>
    subst hi
    simp only [exec, execPop, perform_eq, withReg_valid h]
    rw [popByte_ok (s := s.passOperands _) h1 h2]; rfl
  | call r h hi hs =>
    subst hi
    simp only [exec, execCall, perform_eq, withReg_valid h]
    rw [pushByte_ok (s := s.passOperands _) hs]; rfl
  | ret hi h1 h2 =>
    subst hi
    simp only [exec, execRet, perform_eq]
    rw [popByte_ok (s := s.passOperands _) h1 h2]; rfl
  | jump r h hi =>
    rcases hi with rfl | ⟨rfl, ht⟩ | ⟨rfl, ht⟩
    · simp only [exec, execJump, perform_eq, withReg_valid h]; rfl
    · simp only [exec, execJeq, perform_eq, branchBody_valid h, State.passOperands_fl, ht]; rfl
    · simp only [exec, execJne, perform_eq, branchBody_valid h, State.passOperands_fl, ht]; rfl
  | fallThrough r h hi =>
    rcases hi with ⟨rfl, ht⟩ | ⟨rfl, ht⟩
    · simp only [exec, execJeq, perform_eq, branchBody_valid h, State.passOperands_fl, ht]; rfl
    · simp only [exec, execJne, perform_eq, branchBody_valid h, State.passOperands_fl, ht]; rfl
  | hlt hi => subst hi; rfl
  | badRegister b hb =>
    cases i with
    | ret => cases hb
    | hlt => cases hb
    | add x y => simp only [exec, execAdd, perform_eq, aluBody_bad hb]; rfl
    | mul x y => simp only [exec, execMul, perform_eq, aluBody_bad hb]; rfl
    | cmp x y => simp only [exec, execCmp, perform_eq, aluBody_bad hb]; rfl
    | ldi x y => obtain ⟨rfl, h⟩ := find_bad_reg hb; simp only [exec, execLdi, perform_eq, withReg_invalid h]; rfl
    | prn x => obtain ⟨rfl, h⟩ := find_bad_reg hb; simp only [exec, execPrn, perform_eq, withReg_invalid h]; rfl
    | push x => obtain ⟨rfl, h⟩ := find_bad_reg hb; simp only [exec, execPush, perform_eq, withReg_invalid h]; rfl
    | pop x => obtain ⟨rfl, h⟩ := find_bad_reg hb; simp only [exec, execPop, perform_eq, withReg_invalid h]; rfl
    | call x => obtain ⟨rfl, h⟩ := find_bad_reg hb; simp only [exec, execCall, perform_eq, withReg_invalid h]; rfl
    | jump x => obtain ⟨rfl, h⟩ := find_bad_reg hb; simp only [exec, execJump, perform_eq, withReg_invalid h]; rfl
    | jeq x =>
      obtain ⟨rfl, h⟩ := find_bad_reg hb
      simp only [exec, execJeq, perform_eq, branchBody, withReg_invalid h]; rfl
    | jne x =>
      obtain ⟨rfl, h⟩ := find_bad_reg hb
      simp only [exec, execJne, perform_eq, branchBody, withReg_invalid h]; rfl
  | stackFull hi hw hs =>
    obtain ⟨r, rfl | rfl⟩ := hi
    · simp only [exec, execPush, perform_eq, withReg_valid (valid_of_wellFormed rfl hw)]
      rw [pushByte_full (s := s.passOperands _) hs]; rfl
    · simp only [exec, execCall, perform_eq, withReg_valid (valid_of_wellFormed rfl hw)]
      rw [pushByte_full (s := s.passOperands _) hs]; rfl
  | stackBelowLimit hi hw h1 =>
    rcases hi with ⟨r, rfl⟩ | rfl
    · simp only [exec, execPop, perform_eq, withReg_valid (valid_of_wellFormed rfl hw)]
      rw [popByte_below (s := s.passOperands _) h1]; rfl
    · simp only [exec, execRet, perform_eq]
      rw [popByte_below (s := s.passOperands _) h1]; rfl
  | stackAtTop hi hw h1 h2 =>
    rcases hi with ⟨r, rfl⟩ | rfl
    · simp only [exec, execPop, perform_eq, withReg_valid (valid_of_wellFormed rfl hw)]
      rw [popByte_top (s := s.passOperands _) h1 h2]; rfl
    · simp only [exec, execRet, perform_eq]
      rw [popByte_top (s := s.passOperands _) h1 h2]; rfl

end Sys2Proof.Machine
end

