-- ==== Sys2Proof/Laws/Launch.lean ====
section
/-! SUPPORT. The host interface: everything an answered call can do, said once. -/

namespace Sys2Proof.Machine

/-- The core a load may act on is Idle and not loaded yet. -/
theorem Session.loadable_some {h : Session} {s : State} (e : h.loadable = some s) :
    h.core = some s ∧ s.run = .idle ∧ h.loaded = false := by
  unfold Session.loadable at e
  split at e
  · next hc =>
    split at e
    · next hg => cases e; exact ⟨hc, hg⟩
    · cases e
  · cases e

/-- The core `run()` leaves is a loaded Idle one started, or one in LoadFailed as it was. -/
theorem Session.runnable_some {h : Session} {t : State} (e : h.runnable = some t) :
    (∃ s, h.core = some s ∧ s.run = .idle ∧ h.loaded = true ∧ t = s.start) ∨
      (h.core = some t ∧ t.run = .loadFailed) := by
  unfold Session.runnable at e
  split at e
  · next s hc =>
    split at e
    · next hg => cases e; exact .inl ⟨s, hc, hg.1, hg.2, rfl⟩
    · split at e
      · next hf => cases e; exact .inr ⟨hc, hf⟩
      · cases e
  · cases e

/-- THE inversion lemma of a host call: what an answered call can do, its guards included. -/
theorem hostCall_cases {r7 : Byte} {c : HostCall} {h h' : Session} (e : hostCall r7 c h = .next h') :
    (c = .init ∧ h.initializable = true ∧ h' = h.after (State.resetWith r7) false) ∨
      (∃ s, h.core = some s ∧ s.run = .idle ∧ h.loaded = false ∧
        ((∃ image, c = .load image ∧ h' = h.after (s.deliver image h.calls) true) ∨
          (c = .loadFailed ∧ h' = h.after (s.loadFail h.calls) true))) ∨
      (c = .run ∧
        ((∃ s, h.core = some s ∧ s.run = .idle ∧ h.loaded = true ∧ h' = h.after s.start h.loaded) ∨
          ∃ s, h.core = some s ∧ s.run = .loadFailed ∧ h' = h.after s h.loaded)) := by
  cases c with
  | init =>
    simp only [hostCall] at e
    split at e
    · next hi => cases e; exact .inl ⟨rfl, hi, rfl⟩
    · cases e
  | load image =>
    simp only [hostCall] at e
    split at e
    · next s hs =>
      obtain ⟨h1, h2, h3⟩ := Session.loadable_some hs
      cases e; exact .inr (.inl ⟨s, h1, h2, h3, .inl ⟨image, rfl, rfl⟩⟩)
    · cases e
  | loadFailed =>
    simp only [hostCall] at e
    split at e
    · next s hs =>
      obtain ⟨h1, h2, h3⟩ := Session.loadable_some hs
      cases e; exact .inr (.inl ⟨s, h1, h2, h3, .inr ⟨rfl, rfl⟩⟩)
    · cases e
  | run =>
    simp only [hostCall] at e
    split at e
    · next t ht =>
      cases e
      obtain ⟨s, h1, h2, h3, rfl⟩ | ⟨h1, h2⟩ := Session.runnable_some ht
      · exact .inr (.inr ⟨rfl, .inl ⟨s, h1, h2, h3, rfl⟩⟩)
      · exact .inr (.inr ⟨rfl, .inr ⟨t, h1, h2, rfl⟩⟩)
    · cases e

end Sys2Proof.Machine
end

