-- ==== Sys2Proof/Laws/PerInstr.lean ====
section
/-! SUPPORT. Facts about each instruction as syntax, one lemma per constructor. -/

namespace Sys2Proof.Laws.EncodedLength

/-- The encoding of an instruction has the length its format gives it, and its operand bytes after the opcode. -/
def Statement (i : Instr) : Prop :=
  ∀ m : Opcodes, (encode m i).length = i.length ∧ (encode m i).tail = i.operands

theorem ldi (r v : Byte) : Statement (.ldi r v) := fun _ => ⟨rfl, rfl⟩
theorem prn (r : Byte) : Statement (.prn r) := fun _ => ⟨rfl, rfl⟩
theorem add (a b : Byte) : Statement (.add a b) := fun _ => ⟨rfl, rfl⟩
theorem mul (a b : Byte) : Statement (.mul a b) := fun _ => ⟨rfl, rfl⟩
theorem cmp (a b : Byte) : Statement (.cmp a b) := fun _ => ⟨rfl, rfl⟩
theorem push (r : Byte) : Statement (.push r) := fun _ => ⟨rfl, rfl⟩
theorem pop (r : Byte) : Statement (.pop r) := fun _ => ⟨rfl, rfl⟩
theorem call (r : Byte) : Statement (.call r) := fun _ => ⟨rfl, rfl⟩
theorem ret : Statement .ret := fun _ => ⟨rfl, rfl⟩
theorem jump (r : Byte) : Statement (.jump r) := fun _ => ⟨rfl, rfl⟩
theorem jeq (r : Byte) : Statement (.jeq r) := fun _ => ⟨rfl, rfl⟩
theorem jne (r : Byte) : Statement (.jne r) := fun _ => ⟨rfl, rfl⟩
theorem hlt : Statement .hlt := fun _ => ⟨rfl, rfl⟩

end Sys2Proof.Laws.EncodedLength
end

