-- ==== Sys2Proof/Laws/Step.lean ====
section
/-! SUPPORT. The cycle: which bytes a step reads, and everything a step can do. -/

namespace Sys2Proof.Machine

theorem stepWith_running {m : Opcodes} {s : State} (h : s.run = .running) : stepWith m s = cycle m s := by
  simp [stepWith, stepIfRunning, h]

/-- Bytes that lie in memory from an address are the first of those read from it. -/
theorem bytesFrom_holds (s : State) (bs : List Byte) (a n : Nat) (hn : bs.length ≤ n) (h : s.HoldsAt a bs) :
    ∃ rest, s.bytesFrom a n = bs ++ rest := by
  induction bs generalizing a n with
  | nil => exact ⟨_, rfl⟩
  | cons b bs ih =>
    cases n with
    | zero => simp at hn
    | succ n =>
      have h0 : s.memRead (a : Int) = some b := by
        have := h 0 (Nat.zero_lt_succ _)
        rw [show (a : Int) + (0 : Nat) = a by simp] at this
        exact this
      have ht : s.HoldsAt (a + 1) bs := by
        intro k hk
        have := h (k + 1) (by simpa using hk)
        rw [show ((a + 1 : Nat) : Int) + k = (a : Int) + (k + 1 : Nat) by push_cast; omega]
        exact this
      obtain ⟨rest, hr⟩ := ih (a + 1) n (by simpa using hn) ht
      exact ⟨rest, by simp [State.bytesFrom, h0, hr]⟩

theorem bytesFrom_outside (s : State) (a n : Nat) (h : 255 < a) : s.bytesFrom a n = [] := by
  cases n with
  | zero => rfl
  | succ n =>
    have : s.memRead (a : Int) = none := State.memRead_outOfBounds _ _ (by unfold inBounds; omega)
    simp [State.bytesFrom, this]

/-- What is read from an address ends where memory ends. -/
theorem bytesFrom_length (s : State) (a n : Nat) (ha : a ≤ 256) : a + (s.bytesFrom a n).length ≤ 256 := by
  induction n generalizing a with
  | zero => exact ha
  | succ n ih =>
    by_cases h : a ≤ 255
    · have hb : s.memRead (a : Int) = some (s.mem.get a) := by
        rw [State.memRead_inBounds _ _ (by unfold inBounds; omega)]; rfl
      have := ih (a + 1) (by omega)
      simp only [State.bytesFrom, hb, List.length_cons]
      omega
    · rw [bytesFrom_outside _ _ _ (by omega)]; exact ha

/-- THE inversion lemma of the step: the core was Running, and the step executed the instruction its bytes decode to,
or raised the fault of bytes that decode to none. -/
theorem step_cases {m : Opcodes} {s t : State} (h : stepWith m s = .next t) :
    s.run = .running ∧
      ((∃ i rest, decode m s.fetchBytes = .ok i rest ∧ exec i s = .next t ∧ Effect i s t) ∨
        (∃ e, decode m s.fetchBytes = .reject e ∧ t = raiseRejected s e)) := by
  by_cases hr : s.run = .running
  · refine ⟨hr, ?_⟩
    rw [stepWith_running hr, cycle] at h
    cases hd : decode m s.fetchBytes with
    | ok i rest => rw [hd] at h; exact .inl ⟨i, rest, rfl, h, exec_effect h⟩
    | reject e => rw [hd] at h; exact .inr ⟨e, rfl, next_inj h⟩
  · simp [stepWith, stepIfRunning, hr] at h

theorem raiseRejected_eq (s : State) (e : DecodeError) : ∃ kind index, raiseRejected s e = s.raise kind index := by
  cases e <;> exact ⟨_, _, rfl⟩

end Sys2Proof.Machine
end

