-- ==== Sys2Proof/Tests/Slice0.lean ====
section
/-! SUPPORT. Tests: words written out from the spec's encodings, vectors of 95_test_vectors.md (V and S numbers), and a
witness for the hypotheses of every statement. -/

namespace Sys2Proof.Tests

open Sys2Proof.Machine

/-! ## Well-formedness: each check refuses an ill-formed term -/

theorem test_wellFormed_top_index : (Instr.ldi 7 255).wellFormed = true := by decide
theorem test_illFormed_ldi : (Instr.ldi 8 0).wellFormed = false := by decide
theorem test_illFormed_prn : (Instr.prn 255).wellFormed = false := by decide
theorem test_illFormed_add_a : (Instr.add 8 0).wellFormed = false := by decide
theorem test_illFormed_add_b : (Instr.add 0 8).wellFormed = false := by decide
theorem test_illFormed_mul : (Instr.mul 0 16).wellFormed = false := by decide
theorem test_illFormed_cmp : (Instr.cmp 9 0).wellFormed = false := by decide
theorem test_illFormed_push : (Instr.push 8).wellFormed = false := by decide
theorem test_illFormed_pop : (Instr.pop 128).wellFormed = false := by decide
theorem test_illFormed_call : (Instr.call 8).wellFormed = false := by decide
theorem test_illFormed_jump : (Instr.jump 10).wellFormed = false := by decide
theorem test_illFormed_jeq : (Instr.jeq 8).wellFormed = false := by decide
theorem test_illFormed_jne : (Instr.jne 8).wellFormed = false := by decide

/-! ## Decoding: every row of R54, its opcode byte in binary -/

theorem test_opcodes_distinct : Config.opcodes.Distinct := by decide
theorem test_decode_ldi :
    decode Config.opcodes [0b10000010#8, 0b00000011#8, 0b11001000#8] = .ok (.ldi 3 200) [] := by decide
theorem test_decode_prn : decode Config.opcodes [0b01000111#8, 0b00000010#8] = .ok (.prn 2) [] := by decide
theorem test_decode_add :
    decode Config.opcodes [0b10100000#8, 0b00000001#8, 0b00000100#8] = .ok (.add 1 4) [] := by decide
theorem test_decode_mul :
    decode Config.opcodes [0b10100010#8, 0b00000101#8, 0b00000110#8] = .ok (.mul 5 6) [] := by decide
theorem test_decode_cmp :
    decode Config.opcodes [0b10100111#8, 0b00000111#8, 0b00000000#8] = .ok (.cmp 7 0) [] := by decide
theorem test_decode_push : decode Config.opcodes [0b01000101#8, 0b00000001#8] = .ok (.push 1) [] := by decide
theorem test_decode_pop : decode Config.opcodes [0b01000110#8, 0b00000001#8] = .ok (.pop 1) [] := by decide
theorem test_decode_call : decode Config.opcodes [0b01010000#8, 0b00000010#8] = .ok (.call 2) [] := by decide
theorem test_decode_ret : decode Config.opcodes [0b00010001#8, 0b11111111#8] = .ok .ret [255] := by decide
theorem test_decode_jump : decode Config.opcodes [0b01010100#8, 0b00000011#8] = .ok (.jump 3) [] := by decide
theorem test_decode_jeq : decode Config.opcodes [0b01010101#8, 0b00000100#8] = .ok (.jeq 4) [] := by decide
theorem test_decode_jne : decode Config.opcodes [0b01010110#8, 0b00000101#8] = .ok (.jne 5) [] := by decide
theorem test_decode_hlt : decode Config.opcodes [0b00000001#8] = .ok .hlt [] := by decide
theorem test_decode_zero : decode Config.opcodes [0, 0, 0] = .reject (.unrecognized 0) := by decide
theorem test_decode_short : decode Config.opcodes [0x82, 0] = .reject (.missingOperand 2) := by decide
theorem test_decode_bad_index_is_recognised : decode Config.opcodes [0x82, 9, 1] = .ok (.ldi 9 1) [] := by decide
theorem test_tableWord : decodeTableWord 24 0x410082 = some (.ldi 0 65) := by decide
theorem test_tableWord_opcode_only : decodeTableWord 8 0xA0 = some (.add 0 0) := by decide
theorem test_withFetchWord :
    Machine.step (State.reset.withFetchWord 24 0x410082) = exec (.ldi 0 65) (State.reset.withFetchWord 24 0x410082) :=
  rfl

/-! ## One step on a small state -/

/-- A Running core at `pc` with `bytes` there, `lim = 32` (the convention of 95_test_vectors.md). -/
def coreAt (pc : Nat) (bytes : List Byte) : State :=
  { State.reset with run := .running, lim := 32, pc := pc, mem := Memory.writeBytes [] pc bytes }

/-- The outcome is a next state with the property. -/
def answers (o : Host.Outcome State Fault Refusal) (p : State → Bool) : Bool :=
  match o with
  | .next t => p t
  | .fault _ => false
  | .refused _ => false

/-- The fault record of a bounds fault. -/
def oob (sub : BoundsKind) (index : Int) (addr : Nat) (opcode : Option Byte) : Option FaultRecord :=
  some { kind := .outOfBounds sub, addr := addr, opcode := opcode, index := some index }

theorem test_ldi_r7_leaves_sp_V2 : answers (Machine.step (coreAt 10 [0x82, 0x07, 0xC8]))
    (fun t => t.regs.x7 == 200 && t.pc == 13 && t.sp == 244) = true := by decide
theorem test_ldi_bad_index_V3 : answers (Machine.step (coreAt 0 [0x82, 0x08, 0x01]))
    (fun t => t.fault == oob .regIndex 8 0 (some 0x82) && t.run == .faulted && t.pc == 0) = true := by decide
theorem test_prn_appends_V6 :
    answers (Machine.step { coreAt 0 [0x47, 0x02] with regs := { State.reset.regs with x2 := 255 }, out := [1] })
      (fun t => t.out == [1, 255] && t.pc == 2) = true := by decide
theorem test_prn_bad_index_V8 : answers (Machine.step (coreAt 0 [0x47, 0xFF]))
    (fun t => t.fault == oob .regIndex 255 0 (some 0x47) && t.out == []) = true := by decide
theorem test_add_V10 : answers
    (Machine.step { coreAt 0 [0xA0, 0x00, 0x01] with regs := { State.reset.regs with x0 := 200, x1 := 100 }, fl := 2 })
    (fun t => t.regs.x0 == 44 && t.regs.x1 == 100 && t.fl == 2 && t.pc == 3) = true := by decide
theorem test_add_doubles_V14 :
    answers (Machine.step { coreAt 0 [0xA0, 0x04, 0x04] with regs := { State.reset.regs with x4 := 128 } })
      (fun t => t.regs.x4 == 0) = true := by decide
theorem test_mul_V16 : answers
    (Machine.step { coreAt 0 [0xA2, 0x00, 0x01] with regs := { State.reset.regs with x0 := 100, x1 := 5 }, fl := 4 })
    (fun t => t.regs.x0 == 244 && t.regs.x1 == 5 && t.fl == 4) = true := by decide
theorem test_mul_squares_V21 :
    answers (Machine.step { coreAt 0 [0xA2, 0x05, 0x05] with regs := { State.reset.regs with x5 := 15 } })
      (fun t => t.regs.x5 == 225) = true := by decide
theorem test_cmp_unsigned_V28 : answers
    (Machine.step { coreAt 0 [0xA7, 0x00, 0x01] with regs := { State.reset.regs with x0 := 128, x1 := 127 }, fl := 1 })
    (fun t => t.fl == 2 && t.pc == 3) = true := by decide
theorem test_cmp_tests_a_first_V30 : answers (Machine.step (coreAt 0 [0xA7, 0x08, 0x09]))
    (fun t => t.fault == oob .regIndex 8 0 (some 0xA7) && t.fl == 0) = true := by decide
theorem test_push_V31 : answers
    (Machine.step { coreAt 9 [0x45, 0x00] with lim := 27, regs := { State.reset.regs with x0 := 44 } })
    (fun t => t.memRead 243 == some 44 && t.sp == 243 && t.pc == 11) = true := by decide
theorem test_push_at_zero_V34 : answers (Machine.step { coreAt 0 [0x45, 0x00] with sp := 0, lim := 0 })
    (fun t => t.fault == oob .stack (-1) 0 (some 0x45) && t.sp == 0) = true := by decide
theorem test_pop_V36 : answers
    (Machine.step { coreAt 0 [0x46, 0x01] with
      sp := 243, mem := Memory.writeBytes (coreAt 0 [0x46, 0x01]).mem 243 [44] })
    (fun t => t.regs.x1 == 44 && t.sp == 244 && t.memRead 243 == some 44 && t.pc == 2) = true := by decide
theorem test_pop_at_top_V38 : answers (Machine.step { coreAt 0 [0x46, 0x00] with sp := 255 })
    (fun t => t.fault == oob .stack 256 0 (some 0x46) && t.sp == 255) = true := by decide
theorem test_call_V40 : answers
    (Machine.step { coreAt 6 [0x50, 0x01] with lim := 15, regs := { State.reset.regs with x1 := 11 } })
    (fun t => t.memRead 243 == some 7 && t.sp == 243 && t.pc == 11) = true := by decide
theorem test_call_full_V44 : answers (Machine.step { coreAt 20 [0x50, 0x02] with sp := 32 })
    (fun t => t.fault == oob .stack 31 20 (some 0x50) && t.sp == 32 && t.pc == 20) = true := by decide
theorem test_ret_V41 : answers
    (Machine.step { coreAt 14 [0x11] with
      lim := 15, sp := 243, mem := Memory.writeBytes (coreAt 14 [0x11]).mem 243 [7] })
    (fun t => t.pc == 8 && t.sp == 244 && t.memRead 243 == some 7) = true := by decide
theorem test_ret_to_256_V42 : answers
    (Machine.step { coreAt 5 [0x11] with sp := 243, mem := Memory.writeBytes (coreAt 5 [0x11]).mem 243 [255] })
    (fun t => t.pc == 256 && t.sp == 244) = true := by decide
theorem test_jump_V46 :
    answers (Machine.step { coreAt 5 [0x54, 0x01] with regs := { State.reset.regs with x1 := 255 } })
      (fun t => t.pc == 255) = true := by decide
theorem test_jump_bad_index_V47 : answers (Machine.step (coreAt 5 [0x54, 0x0A]))
    (fun t => t.fault == oob .regIndex 10 5 (some 0x54) && t.pc == 5) = true := by decide
theorem test_jeq_V48 :
    answers (Machine.step { coreAt 25 [0x55, 0x02] with fl := 1, regs := { State.reset.regs with x2 := 29 } })
      (fun t => t.pc == 29) = true := by decide
theorem test_jeq_untaken_bad_index_V52 : answers (Machine.step { coreAt 25 [0x55, 0x08] with fl := 4 })
    (fun t => t.fault == oob .regIndex 8 25 (some 0x55)) = true := by decide
theorem test_jne_V53 :
    answers (Machine.step { coreAt 20 [0x56, 0x03] with regs := { State.reset.regs with x3 := 12 } })
      (fun t => t.pc == 12) = true := by decide
theorem test_jne_unreachable_flags_V57 :
    answers (Machine.step { coreAt 20 [0x56, 0x03] with fl := 6, regs := { State.reset.regs with x3 := 12 } })
      (fun t => t.pc == 22) = true := by decide
theorem test_hlt_V58 : answers (Machine.step (coreAt 5 [0x01]))
    (fun t => t.run == .halted && t.pc == 5) = true := by decide
theorem test_hlt_at_top_V67 : answers (Machine.step (coreAt 255 [0x01]))
    (fun t => t.run == .halted && t.pc == 255) = true := by decide

/-! ## The cycle -/

theorem test_untouched_byte_V61 : answers (Machine.step (coreAt 40 []))
    (fun t => t.fault == some { kind := .unrecognizedOpcode, addr := 40, opcode := some 0, index := none }) = true := by
  decide
theorem test_unrecognized_at_top_V62 : answers (Machine.step (coreAt 255 [0xFF]))
    (fun t => t.fault == some { kind := .unrecognizedOpcode, addr := 255, opcode := some 0xFF, index := none })
      = true := by decide
theorem test_fetch_at_256_V63 : answers (Machine.step (coreAt 256 []))
    (fun t => t.fault == oob .fetch 256 256 none && t.pc == 256) = true := by decide
theorem test_second_operand_V66 : answers (Machine.step (coreAt 254 [0x82, 0x09]))
    (fun t => t.fault == oob .operand 256 254 (some 0x82) && t.pc == 254) = true := by decide
theorem test_first_operand_V65 : answers (Machine.step (coreAt 255 [0x47]))
    (fun t => t.fault == oob .operand 256 255 (some 0x47)) = true := by decide
theorem test_last_instruction_V68 : answers
    (Machine.step { coreAt 253 [0xA0, 0x00, 0x01] with regs := { State.reset.regs with x0 := 1, x1 := 2 } })
    (fun t => t.regs.x0 == 3 && t.pc == 256 && t.run == .running) = true := by decide

/-! ## Memory: writing the unlisted value removes the entry -/

theorem test_write_zero_removes : Memory.write [(3, 7), (5, 1)] 3 0 = [(5, 1)] := by decide
theorem test_write_keeps_order : Memory.write [(3, 7), (5, 1)] 4 9 = [(3, 7), (4, 9), (5, 1)] := by decide

/-! ## The host interface -/

/-- A session after the first `initialize()`. -/
def fresh : Session := { core := some State.reset, loaded := false, calls := 1 }

/-- A session whose image was loaded. -/
def loadedSession (image : List Byte) : Session := { core := some (State.reset.load image), loaded := true, calls := 2 }

theorem test_initialize_V70 : hostCall Config.r7Reset .init Session.cold = .next fresh := rfl
/-- The alternative value of `R7_RESET` (R5, 93_implementation_defined.md U11). -/
theorem test_initialize_alternative_r7 : hostCall 244 .init Session.cold =
    .next { core := some { State.reset with regs := { State.reset.regs with x7 := 244 } }, loaded := false
            calls := 1 } := rfl
theorem test_load_V74 : hostCall Config.r7Reset (.load [1]) fresh = .next (loadedSession [1]) := rfl
theorem test_run_V74 : answers (Machine.step (launch 0 [1]))
    (fun t => t.status == some .normalHalt && t.pc == 0 && t.lim == 1) = true := by decide
theorem test_run_empty_V71 : answers (Machine.step (launch 0 []))
    (fun t => t.status == some (.unrecognizedOpcode 0 (some 0)) && t.out == []) = true := by decide
theorem test_run_before_load_refused : hostCall Config.r7Reset .run fresh = .refused (.callOutOfOrder .run) := rfl

/-! ## Witnesses: a concrete case that meets the hypotheses of each statement -/

theorem witness_MemoryAccessIsBoundsChecked :
    State.reset.mem.wf = true ∧ (-1 : Int) < 0 ∧ (255 : Int) < 256 ∧ inBounds 0 ∧ inBounds 255 := by decide

theorem witness_DecodeOfEncodeIsTheInstruction : Config.opcodes.Distinct := by decide

theorem witness_EncodeOfDecodeGivesTheBytesBack :
    decode Config.opcodes [0x82, 255, 255, 9] = .ok (.ldi 255 255) [9] := by decide

theorem witness_StepRunsTheInstructionAtPc :
    (coreAt 253 [0xA0, 1, 2]).run = .running ∧ (coreAt 253 [0xA0, 1, 2]).HoldsAt 253 [0xA0, 1, 2] ∧
      decode Config.opcodes [0xA0, 1, 2] = .ok (.add 1 2) [] := by
  unfold State.HoldsAt; decide

theorem witness_NoStepOutsideRunning : State.reset.run ≠ .running := by decide

theorem witness_FetchAndOperandBoundsFault :
    Config.opcodes.Distinct ∧ 255 < (coreAt 256 []).pc ∧
    (coreAt 255 [0x47]).memRead 255 = some (opcodeOf Config.opcodes .prn) ∧ 1 ≤ Mnemonic.prn.operandCount ∧
    (coreAt 255 [0x82]).memRead 255 = some (opcodeOf Config.opcodes .ldi) ∧ 1 ≤ Mnemonic.ldi.operandCount ∧
    (coreAt 254 [0x82, 9]).memRead 254 = some (opcodeOf Config.opcodes .ldi) ∧ 2 ≤ Mnemonic.ldi.operandCount := by
  decide

theorem witness_UnrecognizedOpcodeIsFatal :
    (coreAt 255 [0xFF]).run = .running ∧ (coreAt 255 [0xFF]).memRead 255 = some 0xFF ∧
      (0xFF : Byte) ∉ Config.opcodes.toList := by decide

theorem witness_FaultsArePrecise :
    answers (stepWith Config.opcodes (coreAt 0 [0x82, 8, 1])) (fun t => t.run == .faulted) = true := by decide

theorem witness_InstructionTestsComeInOrder :
    (Instr.add 7 8).regOperands.find? (fun b => !validRegIndex b) = some 8 ∧
    (Instr.push 7).wellFormed = true ∧
    (({ coreAt 0 [] with sp := 32 } : State).sp.toNat : Int) - 1 < (coreAt 0 []).lim ∧
    Instr.ret.wellFormed = true ∧ ({ coreAt 0 [] with sp := 31 } : State).sp.toNat < (coreAt 0 []).lim ∧
    (coreAt 0 []).lim ≤ ({ coreAt 0 [] with sp := 255 } : State).sp.toNat ∧
    ({ coreAt 0 [] with sp := 255 } : State).sp.toNat = 255 := by decide

theorem witness_RunningCoreAlwaysSteps : (coreAt 256 []).run = .running := by decide

theorem witness_OnlyHltHalts :
    answers (stepWith Config.opcodes (coreAt 255 [0x01])) (fun t => t.run == .halted) = true := by decide

/-- The boundary indices 7 and 8 of every clause on one register operand (LDI, PRN, JUMP, JEQ, JNE and the register
clauses of PUSH, POP, CALL). -/
theorem witness_one_register_operand : (7 : Byte).toNat < 8 ∧ 8 ≤ (8 : Byte).toNat := by decide

/-- The three clauses on two register operands (ADD, MUL, CMP). -/
theorem witness_two_register_operands :
    ((7 : Byte).toNat < 8 ∧ (0 : Byte).toNat < 8) ∧ 8 ≤ (8 : Byte).toNat ∧
      ((7 : Byte).toNat < 8 ∧ 8 ≤ (255 : Byte).toNat) := by decide

/-- The three comparison clauses of CMP. -/
theorem witness_CmpRecomputesAllFlags :
    (0 : Byte).toNat < (255 : Byte).toNat ∧ (127 : Byte).toNat < (128 : Byte).toNat ∧
      (7 : Byte).toNat = (7 : Byte).toNat := by decide

theorem witness_LdiThenPrnEmitsTheValue :
    (coreAt 251 [0x82, 7, 255, 0x47, 7]).run = .running ∧ (7 : Byte).toNat < 8 ∧
      (coreAt 251 [0x82, 7, 255, 0x47, 7]).HoldsAt 251
        [Config.opcodes.ldi, 7, 255, Config.opcodes.prn, 7] := by
  unfold State.HoldsAt; decide

/-- PUSH and CALL: the lowest slot that is free, and the full stack (with `sp = lim`, and with `sp = 0`). -/
theorem witness_push_slots :
    (coreAt 0 []).lim < ({ coreAt 0 [] with sp := 33 } : State).sp.toNat ∧ (coreAt 0 []).mem.wf = true ∧
    ({ coreAt 0 [] with sp := 32 } : State).sp.toNat ≤ (coreAt 0 []).lim ∧
    ({ coreAt 0 [] with sp := 0 } : State).sp.toNat ≤ (coreAt 0 []).lim := by decide

/-- POP and RET: the bounds of the three clauses, 254, `lim - 1` and 255. -/
theorem witness_pop_slots :
    (coreAt 0 []).lim ≤ ({ coreAt 0 [] with sp := 254 } : State).sp.toNat ∧
    ({ coreAt 0 [] with sp := 254 } : State).sp.toNat < 255 ∧
    ({ coreAt 0 [] with sp := 31 } : State).sp.toNat < (coreAt 0 []).lim ∧
    (coreAt 0 []).lim ≤ ({ coreAt 0 [] with sp := 255 } : State).sp.toNat ∧
    ({ coreAt 0 [] with sp := 255 } : State).sp.toNat = 255 := by decide

theorem witness_PushThenPopRestores :
    (7 : Byte).toNat < 8 ∧ (coreAt 0 []).lim < (coreAt 0 []).sp.toNat ∧ (coreAt 0 []).mem.wf = true := by decide

theorem witness_CallThenRetResumesAfterTheCall :
    (coreAt 254 [0x50, 0]).lim < (coreAt 254 [0x50, 0]).sp.toNat ∧ (coreAt 254 [0x50, 0]).mem.wf = true ∧
    (coreAt 254 [0x50, 0]).pc + 1 ≤ 255 ∧
    ∃ t u : State, exec (.call 0) (coreAt 254 [0x50, 0]) = .next t ∧ u.sp = t.sp ∧ u.lim = t.lim ∧
      u.memRead t.sp.toNat = t.memRead t.sp.toNat :=
  ⟨by decide, by decide, by decide, _, _, rfl, rfl, rfl, rfl⟩

/-- JEQ and JNE: a flags byte under each clause, the unreachable 3 and 6 among them. -/
theorem witness_branch_flags :
    (1 : Byte) = 1 ∧ (3 : Byte) ≠ 1 ∧ ((4 : Byte) = 0 ∨ (4 : Byte) = 2 ∨ (4 : Byte) = 4) ∧
      ¬ ((6 : Byte) = 0 ∨ (6 : Byte) = 2 ∨ (6 : Byte) = 4) := by decide

/-- Equal and unequal registers after a CMP that completes. -/
theorem witness_CmpDecidesTheBranches :
    (∃ t, exec (.cmp 0 1) (coreAt 0 []) = .next t) ∧ (coreAt 0 []).regs.get 0 = (coreAt 0 []).regs.get 1 ∧
    (∃ t, exec (.cmp 0 1) { coreAt 0 [] with regs := (coreAt 0 []).regs.set 0 9 } = .next t) ∧
    ((coreAt 0 []).regs.set 0 9).get 0 ≠ ((coreAt 0 []).regs.set 0 9).get 1 :=
  ⟨⟨_, rfl⟩, by decide, ⟨_, rfl⟩, by decide⟩

theorem witness_HltStopsTheRun : ∃ t, exec .hlt (coreAt 5 [1]) = .next t := ⟨_, rfl⟩

theorem witness_OnlyTheDestinationRegisterChanges :
    (∃ t, exec (.add 6 7) (coreAt 0 []) = .next t) ∧
      ∀ d, (Instr.add 6 7).destination = some d → d.toNat ≠ (7 : Fin 8).val :=
  ⟨⟨_, rfl⟩, fun d h => by cases h; decide⟩

theorem witness_FlagsBelongToCmpAndBranches :
    (∃ t, exec (.add 0 1) (coreAt 0 []) = .next t) ∧ (∀ a b, Instr.add 0 1 ≠ .cmp a b) ∧
      ∀ r, Instr.add 0 1 ≠ .jeq r ∧ Instr.add 0 1 ≠ .jne r :=
  ⟨⟨_, rfl⟩, fun _ _ => nofun, fun _ => ⟨nofun, nofun⟩⟩

theorem witness_StackStateBelongsToStackInstructions :
    (∃ t, exec (.push 0) (coreAt 0 []) = .next t) ∧ (∃ t, exec .ret (coreAt 0 []) = .next t) ∧
      (∃ t, exec (.ldi 7 1) (coreAt 0 []) = .next t) ∧ usesStack (.ldi 7 1) = false :=
  ⟨⟨_, rfl⟩, ⟨_, rfl⟩, ⟨_, rfl⟩, rfl⟩

theorem witness_RegisterSevenIsNotTheStackPointer :
    (∃ t, exec (.push 0) (coreAt 0 []) = .next t) ∧ usesStack (.push 0) = true ∧
    (7 : Byte) ∉ (Instr.push 0).regOperands ∧
    (∃ t, exec (.push 7) (coreAt 0 []) = .next t) ∧ (∃ t, exec (.pop 7) (coreAt 0 []) = .next t) ∧
    (∃ t, exec (.call 7) (coreAt 0 []) = .next t) ∧ (coreAt 0 []).lim < (coreAt 0 []).sp.toNat ∧
    (coreAt 0 []).sp.toNat < 255 ∧ (coreAt 0 []).mem.wf = true ∧ usesStack (.ldi 7 200) = false :=
  ⟨⟨_, rfl⟩, rfl, by decide, ⟨_, rfl⟩, ⟨_, rfl⟩, ⟨_, rfl⟩, by decide, by decide, by decide, rfl⟩

theorem witness_OutputIsWriteOnly :
    (∃ t, exec (.prn 7) (coreAt 0 []) = .next t) ∧ (∃ t, exec (.prn 8) (coreAt 0 []) = .next t) ∧
      (∃ t, exec .hlt (coreAt 0 []) = .next t) ∧ ∀ r, Instr.hlt ≠ .prn r :=
  ⟨⟨_, rfl⟩, ⟨_, rfl⟩, ⟨_, rfl⟩, fun _ => nofun⟩

theorem witness_OnlyTheStackSlotIsStored :
    (∃ t, exec (.call 0) (coreAt 0 []) = .next t) ∧ ((coreAt 0 []).passOperands 1).pushSlot = 243 ∧
      (244 : Int) ≠ 243 ∧
      (∃ t, exec (.pop 0) (coreAt 0 []) = .next t) ∧ ∀ r, Instr.pop 0 ≠ .push r ∧ Instr.pop 0 ≠ .call r :=
  ⟨⟨_, rfl⟩, rfl, by decide, ⟨_, rfl⟩, fun _ => ⟨nofun, nofun⟩⟩

theorem witness_RunStateChangesOnlyByHltOrFault : ∃ t, exec (.pop 8) (coreAt 0 []) = .next t := ⟨_, rfl⟩

theorem witness_imageFits : imageFits (List.replicate 256 1) ∧ imageFits [] :=
  ⟨Nat.le_of_eq List.length_replicate, Nat.zero_le _⟩

/-- A state that meets the invariant, and a step from it. -/
theorem witness_EveryStepKeepsTheInvariant :
    (launch 0 [0x45, 0]).Inv ∧ ∃ t, Machine.step (launch 0 [0x45, 0]) = .next t :=
  ⟨⟨by decide, by decide, by decide, by decide, by decide, by decide, by decide⟩, _, rfl⟩

theorem witness_LoadedImageNeverChanges : Launched Config.opcodes 0 [0x01] (launch 0 [0x01]) :=
  .start (by decide)

theorem witness_EverySessionKeepsTheInvariant :
    Session.Reachable Config.opcodes Config.r7Reset fresh ∧ fresh.core = some State.reset :=
  ⟨.call .init .cold rfl, rfl⟩

theorem witness_LoadFillsFromZero :
    fresh.core = some State.reset ∧ State.reset.run = .idle ∧ fresh.loaded = false ∧ State.reset.mem.wf = true ∧
      (List.replicate 256 (1 : Byte)).length ≤ 256 :=
  ⟨rfl, rfl, rfl, rfl, Nat.le_of_eq List.length_replicate⟩

theorem witness_FailedLoadNeverRuns :
    fresh.core = some State.reset ∧ State.reset.run = .idle ∧ fresh.loaded = false ∧
      256 < (List.replicate 257 (1 : Byte)).length ∧ ∃ h', hostCall Config.r7Reset .loadFailed fresh = .next h' :=
  ⟨rfl, rfl, rfl, Nat.lt_of_lt_of_eq (by decide : 256 < 257) List.length_replicate.symm, _, rfl⟩

theorem witness_LoadFailureIsNoFaultOfAStep :
    (∃ t, stepWith Config.opcodes (coreAt 0 []) = .next t) ∧
      ∃ h s, Session.core h = some s ∧ s.run = .loadFailed :=
  ⟨⟨_, rfl⟩, { core := some (State.reset.loadFail 1), loaded := true, calls := 2 }, _, rfl, rfl⟩

theorem witness_OutOfOrderCallsAreRefused :
    Session.cold.core = none ∧ HostCall.run ≠ .init ∧ (loadedSession [1]).loaded = true ∧
    fresh.core = some State.reset ∧ State.reset.run = .idle ∧ fresh.loaded = false ∧
    (coreAt 0 []).run = .running ∧ (State.raise State.reset .unrecognizedOpcode none).run = .faulted := by
  refine ⟨rfl, ?_, rfl, rfl, rfl, rfl, rfl, rfl⟩; decide

theorem witness_InitializeDiscardsEverything : ∀ s, fresh.core = some s → s.run ≠ .running := by
  intro s h; cases h; decide

/-- A step to each of the four outcomes: Running, Halted, and Faulted by either kind. -/
theorem witness_StoppingStepsHaveAStatus :
    answers (stepWith Config.opcodes (launch 0 [0x82, 0, 1])) (fun t => t.run == .running) = true ∧
      answers (stepWith Config.opcodes (launch 0 [0x01])) (fun t => t.run == .halted) = true ∧
      answers (stepWith Config.opcodes (launch 0 [0x45, 8])) (fun t => t.run == .faulted &&
        t.fault.any fun r => r.kind == .outOfBounds .regIndex) = true ∧
      answers (stepWith Config.opcodes (launch 0 [0xFF])) (fun t => t.run == .faulted &&
        t.fault.any fun r => r.kind == .unrecognizedOpcode) = true := by decide

/-- A session before anything, and one whose run has stopped. -/
theorem witness_TheLegalSequenceLaunches :
    (∀ s, Session.cold.core = some s → s.run ≠ .running) ∧
      ∃ h : Session, h.core = some (State.reset.setRun .halted) ∧ ∀ s, h.core = some s → s.run ≠ .running :=
  ⟨fun _ => nofun, { core := some (State.reset.setRun .halted), loaded := true, calls := 3 }, rfl,
    fun s h => by cases h; decide⟩

theorem witness_RunStartsALoadedCore :
    ∃ s, (loadedSession [1]).core = some s ∧ s.run = .idle ∧ (loadedSession [1]).loaded = true :=
  ⟨_, rfl, rfl, rfl⟩

theorem witness_EveryStepKeepsTheLoadedImage :
    (launch 0 [0x45, 0]).Inv ∧ (launch 0 [0x45, 0]).lim = [0x45, (0 : Byte)].length ∧
      (launch 0 [0x45, 0]).HoldsAt 0 [0x45, 0] ∧ ∃ t, stepWith Config.opcodes (launch 0 [0x45, 0]) = .next t :=
  ⟨⟨by decide, by decide, by decide, by decide, by decide, by decide, by decide⟩, rfl,
    by unfold State.HoldsAt; decide, _, rfl⟩

/-- Each call answered in a session that meets the premise. -/
theorem witness_EveryHostCallKeepsTheInvariant :
    (∃ h', hostCall Config.r7Reset .init Session.cold = .next h') ∧
      (∃ h', hostCall Config.r7Reset (.load [1]) fresh = .next h') ∧
      (∃ h', hostCall Config.r7Reset .loadFailed fresh = .next h') ∧
      (∃ h', hostCall Config.r7Reset .run (loadedSession [1]) = .next h') ∧
      (∀ s, Session.cold.core = some s → s.Inv) ∧ (∀ s, fresh.core = some s → s.Inv) ∧
      ∀ s, (loadedSession [1]).core = some s → s.Inv :=
  ⟨⟨_, rfl⟩, ⟨_, rfl⟩, ⟨_, rfl⟩, ⟨_, rfl⟩, fun _ => nofun,
    fun s h => by cases h; exact ⟨by decide, by decide, by decide, by decide, by decide, by decide, by decide⟩,
    fun s h => by cases h; exact ⟨by decide, by decide, by decide, by decide, by decide, by decide, by decide⟩⟩

theorem witness_StoppedRunsStayStopped :
    (runLoop Config.opcodes 1 (launch 0 [0x01])).run ≠ .running ∧
      (runLoop Config.opcodes 1 (launch 0 [0x82, 0, 1, 0x01])).run = .running := by decide

end Sys2Proof.Tests
end

section
/-! PROOFS. Register 7 and the stack pointer are different state (10_state.md R12): what an instruction does with a
register it does not name, and what an instruction outside PUSH, POP, CALL, RET does with `sp`. -/

namespace Sys2Proof.Machine

/-! Updates that commute -/

theorem Regs.set_comm (x : Regs) {i j : Fin 8} (h : i ≠ j) (v w : Byte) :
    (x.set i v).set j w = (x.set j w).set i v := by
  refine Regs.ext_get fun k => ?_
  simp only [Regs.get_set]
  split_ifs with hj hi
  · exact absurd (hi.symm.trans hj) h
  all_goals rfl

theorem State.setReg_comm (s : State) {i j : Fin 8} (h : i ≠ j) (v w : Byte) :
    (s.setReg i v).setReg j w = (s.setReg j w).setReg i v :=
  congrArg (fun x => { s with regs := x }) (Regs.set_comm s.regs h v w)

theorem applyAlu_get_other (s : State) {i k : Fin 8} (h : k ≠ i) (r : AluResult) :
    (s.applyAlu i r).regs.get k = s.regs.get k := by
  rcases r with ⟨_ | v, _ | f⟩
  · rfl
  · rfl
  · exact Regs.get_set_other s.regs i k v h
  · exact Regs.get_set_other s.regs i k v h

theorem applyAlu_setReg_other (s : State) {i k : Fin 8} (h : k ≠ i) (w : Byte) (r : AluResult) :
    (s.applyAlu i r).setReg k w = (s.setReg k w).applyAlu i r := by
  rcases r with ⟨_ | v, _ | f⟩
  · rfl
  · rfl
  · exact State.setReg_comm s h.symm v w
  · exact congrArg (State.setFl · f) (State.setReg_comm s h.symm v w)

@[simp] theorem applyAlu_sp (s : State) (i : Fin 8) (r : AluResult) : (s.applyAlu i r).sp = s.sp := by
  rcases r with ⟨_ | _, _ | _⟩ <;> rfl

theorem applyAlu_setSp (s : State) (i : Fin 8) (r : AluResult) (p : Byte) :
    (s.applyAlu i r).setSp p = (s.setSp p).applyAlu i r := by
  rcases r with ⟨_ | _, _ | _⟩ <;> rfl

/-! A register the instruction does not name -/

/-- No register operand of the instruction is the index `k`. -/
def Spares (i : Instr) (k : Fin 8) : Prop := ∀ r ∈ i.regOperands, r.toNat ≠ k.val

theorem Spares.ne {i : Instr} {k : Fin 8} (hk : Spares i k) {r : Byte} (hr : r ∈ i.regOperands) (h : r.toNat < 8) :
    k ≠ ⟨r.toNat, h⟩ :=
  fun e => hk r hr (congrArg Fin.val e).symm

theorem spares_seven {i : Instr} (h : 7 ∉ i.regOperands) : Spares i 7 :=
  fun r hr e => h (BitVec.eq_of_toNat_eq (x := r) (y := 7) e ▸ hr)

theorem alu_regOperands {i : Instr} {op : Byte → Byte → AluResult} {a b : Byte}
    (h : (i = .add a b ∧ op = aluAdd) ∨ (i = .mul a b ∧ op = aluMul) ∨ (i = .cmp a b ∧ op = aluCmp)) :
    i.regOperands = [a, b] := by
  rcases h with ⟨rfl, _⟩ | ⟨rfl, _⟩ | ⟨rfl, _⟩ <;> rfl

theorem jump_regOperands {i : Instr} {r : Byte} {p q : Prop}
    (h : i = .jump r ∨ (i = .jeq r ∧ p) ∨ (i = .jne r ∧ q)) : i.regOperands = [r] := by
  rcases h with rfl | ⟨rfl, _⟩ | ⟨rfl, _⟩ <;> rfl

/-- An instruction does not write a register it does not name. -/
theorem Effect.get_spared {i : Instr} {s t : State} {k : Fin 8} (e : Effect i s t) (hk : Spares i k) :
    t.regs.get k = s.regs.get k := by
  cases e with
  | ldi r v h hi => exact Regs.get_set_other _ _ _ _ (hk.ne (by simp [hi, Instr.regOperands]) h)
  | alu op a b ha hb hi => exact applyAlu_get_other s (hk.ne (by simp [alu_regOperands hi]) ha) _
  | pop r h hi => exact Regs.get_set_other _ _ _ _ (hk.ne (by simp [hi, Instr.regOperands]) h)
  | prn | push | call | ret | jump | fallThrough | hlt | badRegister | stackFull | stackBelowLimit | stackAtTop => rfl

/-- An instruction does not read a register it does not name: another value there goes through the step untouched. -/
theorem Effect.setReg_spared {i : Instr} {s t : State} {k : Fin 8} (e : Effect i s t) (hk : Spares i k) (w : Byte) :
    Effect i (s.setReg k w) (t.setReg k w) := by
  have get_ne {r : Byte} (hr : r ∈ i.regOperands) (h : r.toNat < 8) :
      (s.setReg k w).regs.get ⟨r.toNat, h⟩ = s.regs.get ⟨r.toNat, h⟩ :=
    Regs.get_set_other _ _ _ _ (hk.ne hr h).symm
  cases e with
  | ldi r v h hi =>
    have hne := hk.ne (by simp [hi, Instr.regOperands]) h
    exact .of_eq (congrArg (State.setPc · _) (State.setReg_comm s hne.symm v w)) (.ldi r v h hi)
  | prn r h hi =>
    have e' := Effect.prn (s := s.setReg k w) r h hi
    rwa [get_ne (by simp [hi, Instr.regOperands]) h] at e'
  | alu op a b ha hb hi =>
    have e' := Effect.alu (s := s.setReg k w) op a b ha hb hi
    rw [get_ne (by simp [alu_regOperands hi]) ha, get_ne (by simp [alu_regOperands hi]) hb,
      ← applyAlu_setReg_other s (hk.ne (by simp [alu_regOperands hi]) ha)] at e'
    exact e'
  | push r h hi hs =>
    have e' := Effect.push (s := s.setReg k w) r h hi hs
    rwa [get_ne (by simp [hi, Instr.regOperands]) h] at e'
  | pop r h hi h1 h2 =>
    have hne := hk.ne (by simp [hi, Instr.regOperands]) h
    exact .of_eq (congrArg (State.setPc · _) (State.setReg_comm (s.setSp (s.sp + 1)) hne.symm _ w))
      (.pop r h hi h1 h2)
  | call r h hi hs =>
    have e' := Effect.call (s := s.setReg k w) r h hi hs
    rwa [get_ne (by simp [hi, Instr.regOperands]) h] at e'
  | ret hi h1 h2 => exact .ret hi h1 h2
  | jump r h hi =>
    have e' := Effect.jump (s := s.setReg k w) r h hi
    rwa [get_ne (by simp [jump_regOperands hi]) h] at e'
  | fallThrough r h hi => exact .fallThrough r h hi
  | hlt hi => exact .hlt hi
  | badRegister b hb => exact .badRegister b hb
  | stackFull hi hw hs => exact .stackFull hi hw hs
  | stackBelowLimit hi hw h1 => exact .stackBelowLimit hi hw h1
  | stackAtTop hi hw h1 h2 => exact .stackAtTop hi hw h1 h2

/-! The stack pointer -/

theorem usesStack_pushes {i : Instr} (h : ∃ r, i = .push r ∨ i = .call r) : usesStack i = true := by
  obtain ⟨r, rfl | rfl⟩ := h <;> rfl

theorem usesStack_pops {i : Instr} (h : (∃ r, i = .pop r) ∨ i = .ret) : usesStack i = true := by
  obtain ⟨r, rfl⟩ | rfl := h <;> rfl

/-- An instruction that is no stack instruction does not move `sp` and does not read it: another value there goes
through the step untouched. -/
theorem Effect.sp_of_not_usesStack {i : Instr} {s t : State} (e : Effect i s t) (hu : usesStack i = false) :
    t.sp = s.sp ∧ ∀ p : Byte, Effect i (s.setSp p) (t.setSp p) := by
  have no_push (h : ∃ r, i = .push r ∨ i = .call r) : False := by simp [usesStack_pushes h] at hu
  have no_pop (h : (∃ r, i = .pop r) ∨ i = .ret) : False := by simp [usesStack_pops h] at hu
  cases e with
  | ldi r v h hi => exact ⟨rfl, fun p => .ldi r v h hi⟩
  | prn r h hi => exact ⟨rfl, fun p => .prn r h hi⟩
  | alu op a b ha hb hi =>
    exact ⟨applyAlu_sp .., fun p => .of_eq (congrArg (State.setPc · _) (applyAlu_setSp s _ _ p))
      (.alu op a b ha hb hi)⟩
  | jump r h hi => exact ⟨rfl, fun p => .jump r h hi⟩
  | fallThrough r h hi => exact ⟨rfl, fun p => .fallThrough r h hi⟩
  | hlt hi => exact ⟨rfl, fun p => .hlt hi⟩
  | badRegister b hb => exact ⟨rfl, fun p => .badRegister b hb⟩
  | push r h hi => exact (no_push ⟨r, .inl hi⟩).elim
  | call r h hi => exact (no_push ⟨r, .inr hi⟩).elim
  | stackFull hi => exact (no_push hi).elim
  | pop r h hi => exact (no_pop (.inl ⟨r, hi⟩)).elim
  | ret hi => exact (no_pop (.inr hi)).elim
  | stackBelowLimit hi => exact (no_pop hi).elim
  | stackAtTop hi => exact (no_pop hi).elim

/-! The stack instructions that name register 7 -/

theorem stackOK_pushSlot {s : State} (h : s.lim < s.sp.toNat) : s.stackOK s.pushSlot := by
  have := s.sp.isLt
  unfold State.stackOK State.pushSlot
  omega

/-- The byte PUSH and CALL store is the byte read back at the slot, `sp - 1`. -/
theorem memRead_pushed {s t : State} {v : Byte} (hm : s.mem.wf = true) (hs : 0 < s.sp.toNat)
    (ht : t.mem = s.mem.write (s.sp.toNat - 1) v) : t.memRead ((s.sp.toNat : Int) - 1) = some v := by
  have hlt := s.sp.isLt
  have hn : ((s.sp.toNat : Int) - 1).toNat = s.sp.toNat - 1 := by omega
  rw [State.memRead_inBounds _ _ (by unfold inBounds; omega), hn, ht, Memory.get_write hm (by omega), if_pos rfl]

/-- `exec` answers one state: whatever effect applies gives it. -/
theorem eq_of_exec_of_effect {i : Instr} {s t u : State} (h : exec i s = .next t) (e : Effect i s u) : t = u :=
  next_inj ((exec_of_effect e).symm.trans h)

/-- Settles O35, from the effects of `exec`: the first two clauses from what an effect does with a register it spares
and with `sp`, the other three from the effect of PUSH R7, POP R7 and CALL R7. -/
theorem registerSevenIsNotTheStackPointer : Obligations.RegisterSevenIsNotTheStackPointer := by
  intro i s t h
  have e := exec_effect h
  refine ⟨fun _ h7 => ⟨e.get_spared (spares_seven h7),
      fun v => exec_of_effect (e.setReg_spared (spares_seven h7) v)⟩,
    fun hu => ⟨(e.sp_of_not_usesStack hu).1, fun p => exec_of_effect ((e.sp_of_not_usesStack hu).2 p)⟩,
    ?push, ?pop, ?call⟩
  case push =>
    rintro rfl hs hm
    obtain rfl := eq_of_exec_of_effect h (.push 7 (by decide) rfl (stackOK_pushSlot hs))
    exact ⟨rfl, rfl, memRead_pushed hm (by omega) rfl⟩
  case pop =>
    rintro rfl hl ht
    obtain rfl := eq_of_exec_of_effect h (.pop 7 (by decide) rfl hl ht)
    have hr := s.memRead_inBounds s.sp.toNat (by unfold inBounds; omega)
    exact ⟨rfl, hr.trans (congrArg some (Regs.get_set_same s.regs 7 _).symm)⟩
  case call =>
    rintro rfl hs
    obtain rfl := eq_of_exec_of_effect h (.call 7 (by decide) rfl (stackOK_pushSlot hs))
    exact ⟨rfl, rfl, rfl⟩

end Sys2Proof.Machine
end

section
/-! PROOFS. LDI (41_load_print.md R80), and the bounds faults of the fetch and of the operand reads (40_cycle.md R71,
R73), which every mnemonic shares. -/

namespace Sys2Proof

/-- Bytes that end before the last operand are rejected with the number of the first operand that is missing. -/
theorem decodeOperands_short {mn : Mnemonic} {bs : List Byte} (h : bs.length < mn.operandCount) :
    decodeOperands mn bs = .reject (.missingOperand (bs.length + 1)) := by
  have hmax : mn.operandCount ≤ 2 := by cases mn <;> decide
  match bs, hn : mn.operandCount with
  | [], 1 | [], 2 | [_], 2 => simp [decodeOperands, hn]
  | [], 0 | [_], 0 | [_], 1 => simp [hn] at h
  | [], _ + 3 | [_], _ + 3 => omega
  | _ :: _ :: _, n => simp only [List.length_cons] at h; omega

end Sys2Proof

namespace Sys2Proof.Machine

theorem bytesFrom_cons {s : State} {a : Nat} {b : Byte} (h : s.memRead a = some b) (n : Nat) :
    s.bytesFrom a (n + 1) = b :: s.bytesFrom (a + 1) n := by
  simp only [State.bytesFrom, h]

/-- With `k` addresses left before memory ends, a longer read gives exactly those `k` bytes. -/
theorem bytesFrom_length_of_end (s : State) {a k n : Nat} (ha : a + k = 256) (hk : k ≤ n) :
    (s.bytesFrom a n).length = k := by
  induction k generalizing a n with
  | zero => rw [bytesFrom_outside s a n (by omega), List.length_nil]
  | succ k ih =>
    obtain ⟨n, rfl⟩ : ∃ n', n = n' + 1 := ⟨n - 1, by omega⟩
    have hb := s.memRead_inBounds a (by unfold inBounds; omega)
    rw [bytesFrom_cons hb, List.length_cons, ih (by omega) (by omega)]

/-- A step of a Running core whose bytes are no instruction raises the fault of their rejection. -/
theorem stepWith_of_reject {m : Opcodes} {s : State} {e : DecodeError} (hr : s.run = .running)
    (hd : decode m s.fetchBytes = .reject e) : stepWith m s = .next (raiseRejected s e) := by
  simp only [stepWith_running hr, cycle, hd]

/-- An opcode whose operand number `k` would lie at 256, where memory ends, is rejected for lacking that operand. -/
theorem decode_fetchBytes_at_end {m : Opcodes} {mn : Mnemonic} {s : State} {k : Nat} (hm : m.Distinct)
    (hop : s.memRead s.pc = some (opcodeOf m mn)) (h1 : 1 ≤ k) (hk : k ≤ mn.operandCount) (hend : s.pc + k = 256) :
    decode m s.fetchBytes = .reject (.missingOperand k) := by
  have hmax : mn.operandCount ≤ 2 := by cases mn <;> decide
  have hlen : (s.bytesFrom (s.pc + 1) 2).length = k - 1 :=
    bytesFrom_length_of_end s (by omega) (by omega)
  have hshort := decodeOperands_short (mn := mn) (bs := s.bytesFrom (s.pc + 1) 2) (by omega)
  rw [hlen, Nat.sub_add_cancel h1] at hshort
  have hbytes : s.fetchBytes = opcodeOf m mn :: s.bytesFrom (s.pc + 1) 2 := bytesFrom_cons hop 2
  simp only [hbytes, decode, decodeOpcode_opcodeOf hm, hshort]

/-- R71, R73: the bounds faults of the fetch and of the operand reads come before any instruction executes. -/
theorem boundsBeforeExecute {m : Opcodes} (hm : m.Distinct) (mn : Mnemonic) : BoundsBeforeExecute m mn := by
  intro s hr
  refine ⟨fun hpc => ?fetch, fun hop k h1 hk hend => ?operand⟩
  case fetch =>
    have hbytes : s.fetchBytes = [] := bytesFrom_outside s s.pc maxLength hpc
    exact stepWith_of_reject hr (congrArg (decode m) hbytes)
  case operand =>
    have hidx : (s.pc : Int) + k = 256 := by omega
    rw [stepWith_of_reject hr (decode_fetchBytes_at_end hm hop h1 hk hend), raiseRejected, hidx]

/-- Settles O15: the bounds faults are those every mnemonic shares, and the two clauses on the register byte are the
effects of LDI and of a bad register operand. -/
theorem ldiLoadsTheImmediate : Obligations.LdiLoadsTheImmediate :=
  ⟨fun _ hm => ⟨fun _ _ => rfl, boundsBeforeExecute hm .ldi⟩,
    fun r v _ => ⟨fun h => exec_of_effect (.ldi r v h rfl),
      fun h => exec_of_effect (.badRegister r (find_one rfl h))⟩⟩

end Sys2Proof.Machine
end

section
/-! PROOFS. ADD and MUL (42_alu.md R86, R87): the result modulo 256, and the faults of an instruction with two register
operands. -/

namespace Sys2Proof.Machine

/-! Two register operands, A tested before B (R52, R130) -/

theorem find_first {i : Instr} {a b : Byte} (hi : i.regOperands = [a, b]) (h : 8 ≤ a.toNat) :
    i.regOperands.find? (fun b => !validRegIndex b) = some a := by
  rw [hi]
  exact List.find?_cons_of_pos (by simpa [validRegIndex] using h)

theorem find_second {i : Instr} {a b : Byte} (hi : i.regOperands = [a, b]) (ha : a.toNat < 8) (hb : 8 ≤ b.toNat) :
    i.regOperands.find? (fun b => !validRegIndex b) = some b := by
  rw [hi, List.find?_cons_of_neg (by simpa [validRegIndex] using ha)]
  exact List.find?_cons_of_pos (by simpa [validRegIndex] using hb)

/-- The register faults of ADD, MUL and CMP. -/
theorem exec_two_bad_registers {i : Instr} {a b : Byte} (hi : i.regOperands = [a, b]) (s : State) :
    (8 ≤ a.toNat → exec i s = .next (s.raise (.outOfBounds .regIndex) (some a.toNat))) ∧
    (a.toNat < 8 → 8 ≤ b.toNat → exec i s = .next (s.raise (.outOfBounds .regIndex) (some b.toNat))) :=
  ⟨fun ha => exec_of_effect (.badRegister a (find_first hi ha)),
    fun ha hb => exec_of_effect (.badRegister b (find_second hi ha hb))⟩

/-! The byte the ALU makes of an exact sum or product keeps it modulo 256 (R85) -/

theorem ofNat_mod_256 (n : Nat) : (BitVec.ofNat 8 (n % 256) : Byte) = BitVec.ofNat 8 n :=
  BitVec.eq_of_toNat_eq (by simp only [BitVec.toNat_ofNat]; exact Nat.mod_mod n 256)

/-- What an ALU instruction without flag effect leaves: register A holds `n` modulo 256, where `n` is the number the
ALU makes its result byte of from the old A and B. -/
theorem applyAlu_eq_setReg_mod {op : Byte → Byte → AluResult} {x y : Byte} {n : Nat}
    (h : op x y = { result := some (BitVec.ofNat 8 n), flags := none }) (s : State) (i : Fin 8) :
    s.applyAlu i (op x y) = s.setReg i (BitVec.ofNat 8 (n % 256)) := by
  rw [h, ofNat_mod_256]
  rfl

/-- Settles O18: the effect of the ALU with the sum modulo 256, and the register faults of two operands. -/
theorem addWrapsModulo256 : Obligations.AddWrapsModulo256 := by
  refine ⟨fun _ hm => ⟨fun _ _ => rfl, boundsBeforeExecute hm .add⟩,
    fun a b s => ⟨fun ha hb => ?sum, exec_two_bad_registers rfl s⟩⟩
  case sum =>
    have e := exec_of_effect (s := s) (.alu aluAdd a b ha hb (.inl ⟨rfl, rfl⟩))
    rw [applyAlu_eq_setReg_mod rfl] at e
    exact e

/-- Settles O19: the effect of the ALU with the product modulo 256, and the register faults of two operands. -/
theorem mulWrapsModulo256 : Obligations.MulWrapsModulo256 := by
  refine ⟨fun _ hm => ⟨fun _ _ => rfl, boundsBeforeExecute hm .mul⟩,
    fun a b s => ⟨fun ha hb => ?product, exec_two_bad_registers rfl s⟩⟩
  case product =>
    have e := exec_of_effect (s := s) (.alu aluMul a b ha hb (.inr (.inl ⟨rfl, rfl⟩)))
    rw [applyAlu_eq_setReg_mod rfl] at e
    exact e

end Sys2Proof.Machine
end

section
/-! PROOFS. JUMP (44_control.md R98). -/

namespace Sys2Proof.Machine

/-- Settles O27: the bounds faults are those every mnemonic shares; the target is the jump effect, whose condition on
the flags is that of JEQ and JNE only; the register fault is that of a bad register operand. -/
theorem jumpTakesTheRegister : Obligations.JumpTakesTheRegister := by
  refine ⟨fun _ hm => ⟨fun _ => rfl, boundsBeforeExecute hm .jump⟩, fun r _ => ⟨fun h => ?target, fun h => ?fault⟩⟩
  case target => exact exec_of_effect (.jump r h (.inl rfl))
  case fault => exact exec_of_effect (.badRegister r (find_one rfl h))

end Sys2Proof.Machine
end

section
/-! PROOFS. The unrecognised opcode (45_halt_illegal.md R106). -/

namespace Sys2Proof.Machine

/-- A byte at `pc` that is no opcode is rejected by itself: the bytes after it, if there are any, play no part. -/
theorem decode_fetchBytes_unrecognized {m : Opcodes} {s : State} {ir : Byte} (hop : s.memRead s.pc = some ir)
    (hir : ir ∉ m.toList) : decode m s.fetchBytes = .reject (.unrecognized ir) := by
  have hbytes : s.fetchBytes = ir :: s.bytesFrom (s.pc + 1) 2 := bytesFrom_cons hop 2
  simp only [hbytes, decode, decodeOpcode_none.mpr hir]

/-- The record of a fault carries the opcode byte that was fetched. -/
theorem raise_of_fetched {s : State} {ir : Byte} (hop : s.memRead s.pc = some ir) (kind : FaultKind)
    (index : Option Int) :
    s.raise kind index = { s with
      run := .faulted
      fault := some { kind := kind, addr := s.pc, opcode := some ir, index := index } } := by
  rw [State.raise, State.fetchedOpcode, hop]

/-- Settles O10: the step raises the fault of the rejected byte, and the status is read off the record. -/
theorem unrecognizedOpcodeIsFatal : Obligations.UnrecognizedOpcodeIsFatal := by
  intro m s ir hr hop hir
  have hstep := stepWith_of_reject hr (decode_fetchBytes_unrecognized hop hir)
  rw [raiseRejected, raise_of_fetched hop] at hstep
  refine ⟨hstep, fun t ht => ?status⟩
  case status =>
    obtain rfl := next_inj (hstep.symm.trans ht)
    rfl

end Sys2Proof.Machine
end

section
/-! PROOFS. LoadFailure (60_exceptions.md R128): which run states a step can end in, and `run()` in LoadFailed. -/

namespace Sys2Proof.Machine

@[simp] theorem applyAlu_run (s : State) (i : Fin 8) (r : AluResult) : (s.applyAlu i r).run = s.run := by
  rcases r with ⟨_ | _, _ | _⟩ <;> rfl

/-- An instruction leaves `run` alone, or it halts, or it faults. -/
theorem Effect.run_cases {i : Instr} {s t : State} (e : Effect i s t) :
    t.run = s.run ∨ t.run = .halted ∨ t.run = .faulted := by
  cases e with
  | ldi | prn | push | pop | call | ret | jump | fallThrough => exact .inl rfl
  | alu => exact .inl (applyAlu_run _ _ _)
  | hlt => exact .inr (.inl rfl)
  | badRegister | stackFull | stackBelowLimit | stackAtTop => exact .inr (.inr rfl)

/-- A step ends in Running, Halted or Faulted. -/
theorem step_run_cases {m : Opcodes} {s t : State} (h : stepWith m s = .next t) :
    t.run = .running ∨ t.run = .halted ∨ t.run = .faulted := by
  obtain ⟨hr, ⟨_, _, _, _, e⟩ | ⟨e, _, rfl⟩⟩ := step_cases h
  · exact hr ▸ e.run_cases
  · obtain ⟨kind, index, hraise⟩ := raiseRejected_eq s e
    exact .inr (.inr (hraise ▸ State.raise_run s kind index))

theorem Session.runnable_of_loadFailed {h : Session} {s : State} (hc : h.core = some s) (hf : s.run = .loadFailed) :
    h.runnable = some s := by
  simp [Session.runnable, hc, hf]

/-- R113, R114: `run()` is answered wherever it may act, with the core that `Session.runnable` names. -/
theorem hostCall_run {r7 : Byte} {h : Session} {t : State} (e : h.runnable = some t) :
    hostCall r7 .run h = .next (h.after t h.loaded) := by
  simp only [hostCall, e]

/-- Settles O46: LoadFailed is none of the run states a step ends in, and the core that `run()` leaves in LoadFailed
is the one it found. -/
theorem loadFailureIsNoFaultOfAStep : Obligations.LoadFailureIsNoFaultOfAStep := by
  refine ⟨fun m s t hstep hf => ?step, fun r7 h s hc hf => ?run⟩
  case step => simpa [hf] using step_run_cases hstep
  case run => exact ⟨h.after s h.loaded, hostCall_run (Session.runnable_of_loadFailed hc hf), rfl⟩

end Sys2Proof.Machine
end

section
/-! PROOFS. The encoding (30_encoding.md R50 to R58): decoding and encoding are inverse, and which bytes are
unrecognised. -/

namespace Sys2Proof

/-- The operand bytes of an instruction, under its mnemonic, assemble to that instruction. -/
theorem decodeOperands_operands (i : Instr) (rest : List Byte) :
    decodeOperands i.mnemonic (i.operands ++ rest) = .ok i rest := by
  cases i <;> rfl

theorem decode_cons {m : Opcodes} {b : Byte} {mn : Mnemonic} (h : decodeOpcode m b = some mn) (bs : List Byte) :
    decode m (b :: bs) = decodeOperands mn bs := by
  simp only [decode, h]

/-- What decodes begins with a recognised byte, and the bytes after it are the operands and the rest. -/
theorem decode_ok {m : Opcodes} {bs rest : List Byte} {i : Instr} (h : decode m bs = .ok i rest) :
    ∃ b, decodeOpcode m b = some i.mnemonic ∧ bs = b :: (i.operands ++ rest) := by
  cases bs with
  | nil => cases h
  | cons b bs =>
    cases hd : decodeOpcode m b with
    | none => simp [decode, hd] at h
    | some mn =>
      obtain ⟨rfl, rfl⟩ := decodeOperands_ok ((decode_cons hd bs).symm.trans h)
      exact ⟨b, hd, rfl⟩

/-- Settles O3: the opcode byte is read as the instruction's mnemonic, and its operands assemble to it. -/
theorem decodeOfEncodeIsTheInstruction : Obligations.DecodeOfEncodeIsTheInstruction := fun _ i rest hm =>
  (decode_cons (decodeOpcode_opcodeOf hm i.mnemonic) (i.operands ++ rest)).trans (decodeOperands_operands i rest)

theorem encode_of_decode {m : Opcodes} {bs rest : List Byte} {i : Instr} (h : decode m bs = .ok i rest) :
    bs = encode m i ++ rest := by
  obtain ⟨b, hb, rfl⟩ := decode_ok h
  rw [opcodeOf_of_decodeOpcode hb, encode, List.cons_append]

/-- Settles O4: a recognised byte is the one its mnemonic stands for, and the operands are the bytes after it. -/
theorem encodeOfDecodeGivesTheBytesBack : Obligations.EncodeOfDecodeGivesTheBytesBack :=
  fun _ _ _ _ h => (encode_of_decode h).symm

/-- Bytes after an instruction play no part in decoding it. -/
theorem decode_append {m : Opcodes} {bs rest : List Byte} {i : Instr} (h : decode m bs = .ok i rest)
    (more : List Byte) : decode m (bs ++ more) = .ok i (rest ++ more) := by
  obtain ⟨b, hb, rfl⟩ := decode_ok h
  rw [List.cons_append, decode_cons hb, List.append_assoc, decodeOperands_operands]

/-- A recognised opcode is rejected for a missing operand only. -/
theorem decodeOperands_reject {mn : Mnemonic} {bs : List Byte} {e : DecodeError}
    (h : decodeOperands mn bs = .reject e) : ∃ k, e = .missingOperand k := by
  unfold decodeOperands at h
  split at h <;> cases h <;> exact ⟨_, rfl⟩

theorem decode_unrecognized_iff {m : Opcodes} {b c : Byte} {rest : List Byte} :
    decode m (b :: rest) = .reject (.unrecognized c) ↔ b ∉ m.toList ∧ b = c := by
  cases hd : decodeOpcode m b with
  | none => simp [decode, hd, decodeOpcode_none.mp hd]
  | some mn =>
    have hmem : b ∈ m.toList := opcodeOf_of_decodeOpcode hd ▸ opcodeOf_mem m mn
    refine ⟨fun h => ?_, fun h => absurd hmem h.1⟩
    obtain ⟨k, hk⟩ := decodeOperands_reject ((decode_cons hd rest).symm.trans h)
    cases hk

/-- Settles O5: recognised bytes are rejected for their operands only; the count of the others is evaluated. -/
theorem otherBytesAreUnrecognized : Obligations.OtherBytesAreUnrecognized := by
  refine ⟨fun m b rest => ?iff, ?count, ?zero⟩
  case iff => simp [decode_unrecognized_iff]
  case count => decide +kernel
  case zero => decide

/-- Settles O6, by running the decoder on the five words. -/
theorem writtenOutWordsDecode : Obligations.WrittenOutWordsDecode := by
  refine ⟨?_, ?_, ?_, ?_, ?_⟩ <;> decide

end Sys2Proof
end

section
/-! PROOFS. Memory accesses (20_memory.md R31) and reset (10_state.md R27): a write seen through the bounds-checked
reads. -/

namespace Sys2Proof.Machine

/-- Any address but the written one reads as before, in memory of any form. -/
theorem memRead_write_other {s t : State} {n : Nat} {v : Byte} (ht : t.mem = s.mem.write n v) {a : Int} (ha : a ≠ n) :
    t.memRead a = s.memRead a := by
  by_cases hb : inBounds a
  · rw [t.memRead_inBounds a hb, s.memRead_inBounds a hb, ht, Memory.get_write_other _ _ _ (by omega)]
  · rw [t.memRead_outOfBounds a hb, s.memRead_outOfBounds a hb]

theorem memRead_write_same {s t : State} {n : Nat} {v : Byte} (hm : s.mem.wf = true) (hn : n < 256)
    (ht : t.mem = s.mem.write n v) : t.memRead n = some v := by
  rw [t.memRead_inBounds n (by unfold inBounds; omega), Int.toNat_natCast, ht, Memory.get_write hm hn, if_pos rfl]

/-- Settles O2, from the two cases of the bounds test and the read after a write. -/
theorem memoryAccessIsBoundsChecked : Obligations.MemoryAccessIsBoundsChecked := by
  intro s a v
  refine ⟨fun hout => ?outside, fun h0 h255 => ?inside⟩
  case outside =>
    have hb : ¬ inBounds a := by unfold inBounds; omega
    exact ⟨s.memRead_outOfBounds a hb, s.memWrite_outOfBounds a v hb⟩
  case inside =>
    lift a to Nat using h0
    have hb : inBounds (a : Int) := by unfold inBounds; omega
    exact ⟨⟨_, s.memRead_inBounds a hb⟩, _, s.memWrite_inBounds a v hb,
      fun hm => memRead_write_same hm (by omega) rfl, fun b hne => memRead_write_other rfl hne, rfl⟩

/-- Settles O1, register by register and field by field. -/
theorem resetGivesEveryItemItsValue : Obligations.ResetGivesEveryItemItsValue := by
  refine ⟨fun r7 i => ?registers, fun r7 a ha => ?memory, fun r7 => ?items, rfl⟩
  case registers => fin_cases i <;> rfl
  case memory => exact (State.resetWith r7).memRead_inBounds a ha
  case items => exact ⟨rfl, rfl, rfl, rfl, rfl, rfl, rfl⟩

end Sys2Proof.Machine
end

section
/-! PROOFS. The cycle (40_cycle.md R70 to R77): which instruction a step runs, and the three ways a step can end. -/

namespace Sys2Proof.Machine

/-! Steps that exist, and steps that do not (R22) -/

theorem stepWith_of_not_running {m : Opcodes} {s : State} (h : s.run ≠ .running) :
    stepWith m s = .fault (.noStep s.run) := by
  simp only [stepWith, stepIfRunning, if_neg h]

/-- Settles O8, by the test of `run` that every step begins with. -/
theorem noStepOutsideRunning : Obligations.NoStepOutsideRunning := fun _ _ => stepWith_of_not_running

theorem stepWith_of_decode {m : Opcodes} {s : State} {i : Instr} {rest : List Byte} (hr : s.run = .running)
    (hd : decode m s.fetchBytes = .ok i rest) : stepWith m s = exec i s := by
  simp only [stepWith_running hr, cycle, hd]

theorem stepWith_isNext {m : Opcodes} {s : State} (hr : s.run = .running) : ∃ t, stepWith m s = .next t := by
  cases hd : decode m s.fetchBytes with
  | ok i rest =>
    obtain ⟨t, ht⟩ := exec_isNext i s
    exact ⟨t, (stepWith_of_decode hr hd).trans ht⟩
  | reject e => exact ⟨_, stepWith_of_reject hr hd⟩

/-- Settles O13: the cycle answers a next state for bytes that decode and for bytes that do not. -/
theorem runningCoreAlwaysSteps : Obligations.RunningCoreAlwaysSteps := by
  intro m s hr
  obtain ⟨t, ht⟩ := stepWith_isNext (m := m) hr
  exact ⟨t, ht, step_run_cases ht⟩

/-- Settles O9: the bounds faults that every mnemonic shares. -/
theorem fetchAndOperandBoundsFault : Obligations.FetchAndOperandBoundsFault := fun _ mn hm => boundsBeforeExecute hm mn

/-! The instruction at `pc` -/

theorem operandCount_le (mn : Mnemonic) : mn.operandCount ≤ 2 := by
  cases mn <;> decide

theorem length_of_decode {m : Opcodes} {bs rest : List Byte} {i : Instr} (h : decode m bs = .ok i rest) :
    bs.length = i.length + rest.length := by
  obtain ⟨b, _, rfl⟩ := decode_ok h
  simp only [List.length_cons, List.length_append, operands_length, Instr.length]
  omega

/-- A step of a Running core runs the instruction whose bytes lie at `pc`. -/
theorem stepWith_of_holdsAt {m : Opcodes} {s : State} {bs : List Byte} {i : Instr} (hr : s.run = .running)
    (hb : s.HoldsAt s.pc bs) (hd : decode m bs = .ok i []) : stepWith m s = exec i s := by
  have hlen : bs.length ≤ maxLength := by
    have hmax := operandCount_le i.mnemonic
    rw [length_of_decode hd, Instr.length, maxLength, List.length_nil]
    omega
  obtain ⟨rest, hrest⟩ := bytesFrom_holds s bs s.pc maxLength hlen hb
  exact stepWith_of_decode (rest := rest) hr ((congrArg (decode m) hrest).trans (decode_append hd rest))

/-- Settles O7: the bytes fetched begin with those of the instruction, and what follows them plays no part. -/
theorem stepRunsTheInstructionAtPc : Obligations.StepRunsTheInstructionAtPc :=
  ⟨fun _ _ _ _ hr hb hd => stepWith_of_holdsAt hr hb hd, fun _ _ _ hr hb hd => stepWith_of_holdsAt hr hb hd⟩

/-- The first of the fetched bytes is the byte at `pc`. -/
theorem memRead_of_fetchBytes {s : State} {b : Byte} {bs : List Byte} (h : s.fetchBytes = b :: bs) :
    s.memRead s.pc = some b := by
  cases hp : s.memRead s.pc with
  | none => simp [State.fetchBytes, maxLength, State.bytesFrom, hp] at h
  | some c => rw [State.fetchBytes, maxLength, bytesFrom_cons hp] at h; cases h; rfl

theorem opcode_of_decode {m : Opcodes} {s : State} {i : Instr} {rest : List Byte}
    (h : decode m s.fetchBytes = .ok i rest) : s.memRead s.pc = some (opcodeOf m i.mnemonic) :=
  memRead_of_fetchBytes (encode_of_decode h)

/-- An instruction that decodes ends where memory ends, at the latest (R62). -/
theorem pc_add_length_le {m : Opcodes} {s : State} {i : Instr} {rest : List Byte} (hpc : s.pc ≤ 256)
    (h : decode m s.fetchBytes = .ok i rest) : s.pc + i.length ≤ 256 := by
  have hend := bytesFrom_length s s.pc maxLength hpc
  have hlen : (s.bytesFrom s.pc maxLength).length = _ := length_of_decode h
  omega

/-! The three ways an instruction, and a step, can end (R75, R76) -/

@[simp] theorem applyAlu_fault (s : State) (i : Fin 8) (r : AluResult) : (s.applyAlu i r).fault = s.fault := by
  rcases r with ⟨_ | _, _ | _⟩ <;> rfl

/-- An instruction completes with `run` and `fault` untouched, or it is HLT, or it raises a bounds fault. -/
theorem Effect.completes_or_halts_or_raises {i : Instr} {s t : State} (e : Effect i s t) :
    (t.run = s.run ∧ t.fault = s.fault ∧ i ≠ .hlt) ∨ (i = .hlt ∧ t = s.setRun .halted) ∨
      (i ≠ .hlt ∧ ∃ sub index, t = s.raise (.outOfBounds sub) (some index)) := by
  have ne_hlt (h : i.regOperands ≠ []) : i ≠ .hlt := fun e => h (e ▸ rfl)
  cases e with
  | ldi r v h hi | prn r h hi | push r h hi | pop r h hi | call r h hi =>
    exact .inl ⟨rfl, rfl, ne_hlt (by simp [hi, Instr.regOperands])⟩
  | alu op a b ha hb hi =>
    exact .inl ⟨applyAlu_run .., applyAlu_fault .., ne_hlt (by simp [alu_regOperands hi])⟩
  | ret hi => exact .inl ⟨rfl, rfl, by simp [hi]⟩
  | jump r h hi => exact .inl ⟨rfl, rfl, ne_hlt (by simp [jump_regOperands hi])⟩
  | fallThrough r h hi => exact .inl ⟨rfl, rfl, ne_hlt (by simp [jump_regOperands (.inr hi)])⟩
  | hlt hi => exact .inr (.inl ⟨hi, rfl⟩)
  | badRegister b hb => exact .inr (.inr ⟨ne_hlt (fun h => by simp [h] at hb), _, _, rfl⟩)
  | stackFull hi => exact .inr (.inr ⟨by rintro rfl; simp at hi, _, _, rfl⟩)
  | stackBelowLimit hi | stackAtTop hi => exact .inr (.inr ⟨by rintro rfl; simp at hi, _, _, rfl⟩)

/-- Settles O38, from the three ways an effect can end. -/
theorem runStateChangesOnlyByHltOrFault : Obligations.RunStateChangesOnlyByHltOrFault := by
  intro i s t h
  obtain hdone | hhalt | ⟨hne, sub, index, ht⟩ := (exec_effect h).completes_or_halts_or_raises
  · exact .inl hdone
  · exact .inr (.inl hhalt)
  · exact .inr (.inr ⟨hne, _, _, ht⟩)

/-- What a raised fault is about: an opcode byte that was fetched, or a bound with the index that broke it (R125). -/
def FaultCause (s : State) (kind : FaultKind) (index : Option Int) : Prop :=
  (kind = .unrecognizedOpcode ∧ ∃ b, s.memRead s.pc = some b) ∨ ∃ sub x, kind = .outOfBounds sub ∧ index = some x

theorem raiseRejected_cause {m : Opcodes} {s : State} {e : DecodeError} (h : decode m s.fetchBytes = .reject e) :
    ∃ kind index, raiseRejected s e = s.raise kind index ∧ FaultCause s kind index := by
  cases e with
  | noOpcode => exact ⟨_, _, rfl, .inr ⟨_, _, rfl, rfl⟩⟩
  | missingOperand k => exact ⟨_, _, rfl, .inr ⟨_, _, rfl, rfl⟩⟩
  | unrecognized b =>
    cases hf : s.fetchBytes with
    | nil => simp [hf, decode] at h
    | cons c bs => exact ⟨_, _, rfl, .inl ⟨rfl, c, memRead_of_fetchBytes hf⟩⟩

/-- A step leaves the core Running without a new record, or it ran the HLT at `pc`, or it raised a fault. -/
theorem step_completes_or_halts_or_raises {m : Opcodes} {s t : State} (h : stepWith m s = .next t) :
    (t.run = .running ∧ t.fault = s.fault) ∨ (s.memRead s.pc = some m.hlt ∧ t = s.setRun .halted) ∨
      ∃ kind index, t = s.raise kind index ∧ FaultCause s kind index := by
  obtain ⟨hr, ⟨i, rest, hd, _, e⟩ | ⟨e, hd, rfl⟩⟩ := step_cases h
  · obtain ⟨hrun, hfault, _⟩ | ⟨rfl, ht⟩ | ⟨_, sub, index, ht⟩ := e.completes_or_halts_or_raises
    · exact .inl ⟨hrun.trans hr, hfault⟩
    · exact .inr (.inl ⟨opcode_of_decode hd, ht⟩)
    · exact .inr (.inr ⟨_, _, ht, .inr ⟨sub, index, rfl, rfl⟩⟩)
  · exact .inr (.inr (raiseRejected_cause hd))

/-- Settles O11: of the three ways a step can end, only a raised fault ends in Faulted. -/
theorem faultsArePrecise : Obligations.FaultsArePrecise := by
  intro m s t _ h hf
  obtain ⟨hrun, _⟩ | ⟨_, rfl⟩ | ⟨kind, index, ht, _⟩ := step_completes_or_halts_or_raises h
  · simp [hrun] at hf
  · simp at hf
  · exact ⟨kind, index, ht⟩

/-- Settles O14: of the three ways a step can end, only HLT ends in Halted. -/
theorem onlyHltHalts : Obligations.OnlyHltHalts := by
  intro m s t _ h hh
  obtain ⟨hrun, _⟩ | hhlt | ⟨_, _, rfl, _⟩ := step_completes_or_halts_or_raises h
  · simp [hrun] at hh
  · exact hhlt
  · simp at hh

/-- Settles O49: the status of each of the three ways a step can end, that of a fault by its cause. -/
theorem stoppingStepsHaveAStatus : Obligations.StoppingStepsHaveAStatus := by
  intro m s t h
  obtain ⟨hrun, _⟩ | ⟨_, rfl⟩ | ⟨kind, index, rfl, hcause⟩ := step_completes_or_halts_or_raises h
  · exact ⟨fun _ => by simp only [State.status, hrun], by simp [hrun], by simp [hrun]⟩
  · exact ⟨nofun, fun _ => rfl, nofun⟩
  · refine ⟨nofun, nofun, fun _ => ⟨_, rfl, rfl, rfl, fun hk => ?opcode, fun sub hk => ?bounds⟩⟩
    case opcode =>
      obtain ⟨_, b, hb⟩ | ⟨sub, x, hk', _⟩ := hcause
      · exact ⟨b, hb, by simp only [raise_of_fetched hb]; cases hk; rfl⟩
      · cases hk.symm.trans hk'
    case bounds =>
      obtain ⟨hk', _⟩ | ⟨_, x, _, rfl⟩ := hcause
      · cases hk.symm.trans hk'
      · cases hk; exact ⟨x, rfl, rfl⟩

/-- Settles O12: a bad register operand, a full stack, and the two bounds of a pop are effects of `exec`. -/
theorem instructionTestsComeInOrder : Obligations.InstructionTestsComeInOrder := by
  intro i s
  refine ⟨fun b hb => ?register, fun hw hi hlt => ?full, fun hw hi hlt => ?below, fun hw hi hle htop => ?top⟩
  case register => exact exec_of_effect (.badRegister b hb)
  case full => exact exec_of_effect (.stackFull hi hw fun hs => absurd hs.1 (Int.not_le.mpr hlt))
  case below => exact exec_of_effect (.stackBelowLimit hi hw hlt)
  case top => exact exec_of_effect (.stackAtTop hi hw hle htop)

end Sys2Proof.Machine
end

section
/-! PROOFS. Frames (10_state.md R13, R18, R19, R21, R24; 20_memory.md R32): what each instruction leaves unchanged, and
which items of state it does not read. -/

namespace Sys2Proof.Machine

/-! Registers (R13) -/

theorem Regs.get_set_of_ne (x : Regs) {r : Byte} {k : Fin 8} (h : r.toNat < 8) (hk : r.toNat ≠ k.val) (v : Byte) :
    (x.set ⟨r.toNat, h⟩ v).get k = x.get k :=
  Regs.get_set_other _ _ _ _ fun e => hk (congrArg Fin.val e).symm

theorem Effect.get_of_not_destination {i : Instr} {s t : State} {k : Fin 8} (e : Effect i s t)
    (hk : ∀ d, i.destination = some d → d.toNat ≠ k.val) : t.regs.get k = s.regs.get k := by
  cases e with
  | ldi r v h hi | pop r h hi => exact Regs.get_set_of_ne _ h (hk r (by rw [hi]; rfl)) _
  | alu op a b ha hb hi =>
    obtain ⟨rfl, rfl⟩ | ⟨rfl, rfl⟩ | ⟨rfl, rfl⟩ := hi
    · exact Regs.get_set_of_ne _ ha (hk a rfl) _
    · exact Regs.get_set_of_ne _ ha (hk a rfl) _
    · rfl
  | prn | push | call | ret | jump | fallThrough | hlt | badRegister | stackFull | stackBelowLimit | stackAtTop => rfl

/-- Settles O32, from the registers each effect writes. -/
theorem onlyTheDestinationRegisterChanges : Obligations.OnlyTheDestinationRegisterChanges :=
  fun _ _ _ h _ hk => (exec_effect h).get_of_not_destination hk

/-! Flags (R18) -/

theorem Effect.fl_of_not_cmp {i : Instr} {s t : State} (e : Effect i s t) (hc : ∀ a b, i ≠ .cmp a b) :
    t.fl = s.fl := by
  cases e with
  | alu op a b ha hb hi =>
    obtain ⟨_, rfl⟩ | ⟨_, rfl⟩ | ⟨hi, _⟩ := hi
    · rfl
    · rfl
    · exact absurd hi (hc a b)
  | ldi | prn | push | pop | call | ret | jump | fallThrough | hlt => rfl
  | badRegister | stackFull | stackBelowLimit | stackAtTop => rfl

/-- An instruction that is neither CMP nor a branch does not read the flags: another flags byte goes through the step
untouched. -/
theorem Effect.setFl_of_not_branch {i : Instr} {s t : State} (e : Effect i s t) (hc : ∀ a b, i ≠ .cmp a b)
    (hb : ∀ r, i ≠ .jeq r ∧ i ≠ .jne r) (f : Byte) : Effect i (s.setFl f) (t.setFl f) := by
  cases e with
  | ldi r v h hi => exact .ldi r v h hi
  | prn r h hi => exact .prn r h hi
  | alu op a b ha hb hi =>
    obtain ⟨hi, rfl⟩ | ⟨hi, rfl⟩ | ⟨hi, _⟩ := hi
    · exact .alu aluAdd a b ha hb (.inl ⟨hi, rfl⟩)
    · exact .alu aluMul a b ha hb (.inr (.inl ⟨hi, rfl⟩))
    · exact absurd hi (hc a b)
  | push r h hi hs => exact .push r h hi hs
  | pop r h hi h1 h2 => exact .pop r h hi h1 h2
  | call r h hi hs => exact .call r h hi hs
  | ret hi h1 h2 => exact .ret hi h1 h2
  | jump r h hi =>
    obtain hi | ⟨hi, _⟩ | ⟨hi, _⟩ := hi
    · exact .jump r h (.inl hi)
    · exact absurd hi (hb r).1
    · exact absurd hi (hb r).2
  | fallThrough r h hi =>
    obtain ⟨hi, _⟩ | ⟨hi, _⟩ := hi
    · exact absurd hi (hb r).1
    · exact absurd hi (hb r).2
  | hlt hi => exact .hlt hi
  | badRegister b hb => exact .badRegister b hb
  | stackFull hi hw hs => exact .stackFull hi hw hs
  | stackBelowLimit hi hw h1 => exact .stackBelowLimit hi hw h1
  | stackAtTop hi hw h1 h2 => exact .stackAtTop hi hw h1 h2

/-- Settles O33: the effects of the instructions other than CMP keep the flags, and those of all but the branches stay
effects under another flags byte. -/
theorem flagsBelongToCmpAndBranches : Obligations.FlagsBelongToCmpAndBranches := by
  intro i s t h hc
  have e := exec_effect h
  exact ⟨e.fl_of_not_cmp hc, fun hb f => exec_of_effect (e.setFl_of_not_branch hc hb f)⟩

/-! The stack pointer and the stack limit (R19, R21, R90) -/

theorem lt_of_stackOK_pushSlot {s : State} (h : s.stackOK s.pushSlot) : s.lim < s.sp.toNat := by
  have := h.1
  unfold State.pushSlot at this
  omega

theorem toNat_sub_one {p : Byte} (h : 0 < p.toNat) : (p - 1).toNat = p.toNat - 1 := by
  bv_omega

theorem toNat_add_one {p : Byte} (h : p.toNat < 255) : (p + 1).toNat = p.toNat + 1 := by
  bv_omega

@[simp] theorem applyAlu_lim (s : State) (i : Fin 8) (r : AluResult) : (s.applyAlu i r).lim = s.lim := by
  rcases r with ⟨_ | _, _ | _⟩ <;> rfl

theorem Effect.lim_eq {i : Instr} {s t : State} (e : Effect i s t) : t.lim = s.lim := by
  cases e with
  | alu => exact applyAlu_lim ..
  | ldi | prn | push | pop | call | ret | jump | fallThrough | hlt => rfl
  | badRegister | stackFull | stackBelowLimit | stackAtTop => rfl

/-- `sp` stays, or a push from above `lim` lowers it by one, or a pop from `lim` or above raises it by one. -/
theorem Effect.sp_cases {i : Instr} {s t : State} (e : Effect i s t) :
    t.sp = s.sp ∨
      ((∃ r, i = .push r ∨ i = .call r) ∧ s.lim < s.sp.toNat ∧ t.sp.toNat + 1 = s.sp.toNat) ∨
      (((∃ r, i = .pop r) ∨ i = .ret) ∧ s.lim ≤ s.sp.toNat ∧ t.sp.toNat = s.sp.toNat + 1) := by
  have lowered (hs : s.stackOK s.pushSlot) : (s.sp - 1).toNat + 1 = s.sp.toNat := by
    have hlt := lt_of_stackOK_pushSlot hs
    have hsub := toNat_sub_one (p := s.sp) (by omega)
    omega
  cases e with
  | alu => exact .inl (applyAlu_sp ..)
  | push r h hi hs => exact .inr (.inl ⟨⟨r, .inl hi⟩, lt_of_stackOK_pushSlot hs, lowered hs⟩)
  | call r h hi hs => exact .inr (.inl ⟨⟨r, .inr hi⟩, lt_of_stackOK_pushSlot hs, lowered hs⟩)
  | pop r h hi h1 h2 => exact .inr (.inr ⟨.inl ⟨r, hi⟩, h1, toNat_add_one h2⟩)
  | ret hi h1 h2 => exact .inr (.inr ⟨.inr hi, h1, toNat_add_one h2⟩)
  | ldi | prn | jump | fallThrough | hlt => exact .inl rfl
  | badRegister | stackFull | stackBelowLimit | stackAtTop => exact .inl rfl

theorem not_pushes_and_pops {i : Instr} (hpush : ∃ r, i = .push r ∨ i = .call r)
    (hpop : (∃ r, i = .pop r) ∨ i = .ret) : False := by
  obtain ⟨r, rfl | rfl⟩ := hpush <;> simp at hpop

/-- `lim <- l` (R21). -/
def State.setLim (s : State) (l : Nat) : State := { s with lim := l }

theorem applyAlu_setLim (s : State) (i : Fin 8) (r : AluResult) (l : Nat) :
    (s.applyAlu i r).setLim l = (s.setLim l).applyAlu i r := by
  rcases r with ⟨_ | _, _ | _⟩ <;> rfl

/-- An instruction that is no stack instruction does not read `lim`: another value there goes through the step
untouched. -/
theorem Effect.setLim_of_not_usesStack {i : Instr} {s t : State} (e : Effect i s t) (hu : usesStack i = false)
    (l : Nat) : Effect i (s.setLim l) (t.setLim l) := by
  have no_push (h : ∃ r, i = .push r ∨ i = .call r) : False := by simp [usesStack_pushes h] at hu
  have no_pop (h : (∃ r, i = .pop r) ∨ i = .ret) : False := by simp [usesStack_pops h] at hu
  cases e with
  | ldi r v h hi => exact .ldi r v h hi
  | prn r h hi => exact .prn r h hi
  | alu op a b ha hb hi =>
    exact .of_eq (congrArg (State.setPc · _) (applyAlu_setLim s _ _ l)) (.alu op a b ha hb hi)
  | jump r h hi => exact .jump r h hi
  | fallThrough r h hi => exact .fallThrough r h hi
  | hlt hi => exact .hlt hi
  | badRegister b hb => exact .badRegister b hb
  | push r h hi => exact (no_push ⟨r, .inl hi⟩).elim
  | call r h hi => exact (no_push ⟨r, .inr hi⟩).elim
  | stackFull hi => exact (no_push hi).elim
  | pop r h hi => exact (no_pop (.inl ⟨r, hi⟩)).elim
  | ret hi => exact (no_pop (.inr hi)).elim
  | stackBelowLimit hi => exact (no_pop hi).elim
  | stackAtTop hi => exact (no_pop hi).elim

/-- Settles O34: `lim` stays in every effect, `sp` moves as its three cases say, and outside the stack instructions
both may be exchanged, `sp` first. -/
theorem stackStateBelongsToStackInstructions : Obligations.StackStateBelongsToStackInstructions := by
  intro i s t h
  have e := exec_effect h
  refine ⟨e.lim_eq, fun hi => ?push, fun hi => ?pop, fun hu => ⟨(e.sp_of_not_usesStack hu).1, fun p l => ?other⟩⟩
  case push =>
    obtain heq | ⟨_, _, hdown⟩ | ⟨hpop, _⟩ := e.sp_cases
    · exact .inl heq
    · exact .inr hdown
    · exact (not_pushes_and_pops hi hpop).elim
  case pop =>
    obtain heq | ⟨hpush, _⟩ | ⟨_, _, hup⟩ := e.sp_cases
    · exact .inl heq
    · exact (not_pushes_and_pops hpush hi).elim
    · exact .inr hup
  case other => exact exec_of_effect (((e.sp_of_not_usesStack hu).2 p).setLim_of_not_usesStack hu l)

/-! The output (R24) -/

/-- The bytes an instruction appends to the output: the register of a PRN whose index is legal, else none. -/
def emittedBy (i : Instr) (s : State) : List Byte :=
  match i with
  | .prn r => ((regIndex r).map s.regs.get).toList
  | _ => []

theorem emittedBy_of_not_prn {i : Instr} (h : ∀ r, i ≠ .prn r) (s : State) : emittedBy i s = [] := by
  cases i with
  | prn r => exact absurd rfl (h r)
  | _ => rfl

theorem emittedBy_prn_valid {r : Byte} (h : r.toNat < 8) (s : State) :
    emittedBy (.prn r) s = [s.regs.get ⟨r.toNat, h⟩] := by
  simp [emittedBy, regIndex, h]

theorem emittedBy_prn_invalid {r : Byte} (h : 8 ≤ r.toNat) (s : State) : emittedBy (.prn r) s = [] := by
  simp [emittedBy, regIndex, Nat.not_lt.mpr h]

theorem emittedBy_of_bad_register {i : Instr} {b : Byte} (hb : i.regOperands.find? (fun b => !validRegIndex b) = some b)
    (s : State) : emittedBy i s = [] := by
  cases i with
  | prn r => exact emittedBy_prn_invalid (find_bad_reg hb).2 s
  | _ => rfl

@[simp] theorem applyAlu_out (s : State) (i : Fin 8) (r : AluResult) : (s.applyAlu i r).out = s.out := by
  rcases r with ⟨_ | _, _ | _⟩ <;> rfl

theorem Effect.out_eq {i : Instr} {s t : State} (e : Effect i s t) : t.out = s.out ++ emittedBy i s := by
  have unchanged (hi : emittedBy i s = []) : s.out = s.out ++ emittedBy i s := by rw [hi, List.append_nil]
  cases e with
  | prn r h hi => rw [hi, emittedBy_prn_valid h]; rfl
  | alu op a b ha hb hi =>
    refine (applyAlu_out ..).trans (unchanged ?_)
    obtain ⟨rfl, _⟩ | ⟨rfl, _⟩ | ⟨rfl, _⟩ := hi <;> rfl
  | jump r h hi =>
    refine unchanged ?_
    obtain rfl | ⟨rfl, _⟩ | ⟨rfl, _⟩ := hi <;> rfl
  | fallThrough r h hi =>
    refine unchanged ?_
    obtain ⟨rfl, _⟩ | ⟨rfl, _⟩ := hi <;> rfl
  | ldi _ _ _ hi | push _ _ hi | pop _ _ hi | call _ _ hi => exact unchanged (hi ▸ rfl)
  | ret hi | hlt hi => exact unchanged (hi ▸ rfl)
  | badRegister b hb => exact unchanged (emittedBy_of_bad_register hb s)
  | stackFull hi => obtain ⟨r, rfl | rfl⟩ := hi <;> exact unchanged rfl
  | stackBelowLimit hi | stackAtTop hi => obtain ⟨r, rfl⟩ | rfl := hi <;> exact unchanged rfl

/-- `out <- o` (R24). -/
def State.setOut (s : State) (o : List Byte) : State := { s with out := o }

theorem applyAlu_setOut (s : State) (i : Fin 8) (r : AluResult) (o : List Byte) :
    (s.applyAlu i r).setOut o = (s.setOut o).applyAlu i r := by
  rcases r with ⟨_ | _, _ | _⟩ <;> rfl

/-- No instruction reads the output: from another one, the step differs in nothing but the output it leaves. -/
theorem Effect.exists_setOut {i : Instr} {s t : State} (e : Effect i s t) (o : List Byte) :
    ∃ o', Effect i (s.setOut o) (t.setOut o') := by
  cases e with
  | ldi r v h hi => exact ⟨_, .ldi r v h hi⟩
  | prn r h hi => exact ⟨_, .prn r h hi⟩
  | alu op a b ha hb hi =>
    exact ⟨o, .of_eq (congrArg (State.setPc · _) (applyAlu_setOut s _ _ o)) (.alu op a b ha hb hi)⟩
  | push r h hi hs => exact ⟨_, .push r h hi hs⟩
  | pop r h hi h1 h2 => exact ⟨_, .pop r h hi h1 h2⟩
  | call r h hi hs => exact ⟨_, .call r h hi hs⟩
  | ret hi h1 h2 => exact ⟨_, .ret hi h1 h2⟩
  | jump r h hi => exact ⟨_, .jump r h hi⟩
  | fallThrough r h hi => exact ⟨_, .fallThrough r h hi⟩
  | hlt hi => exact ⟨_, .hlt hi⟩
  | badRegister b hb => exact ⟨_, .badRegister b hb⟩
  | stackFull hi hw hs => exact ⟨_, .stackFull hi hw hs⟩
  | stackBelowLimit hi hw h1 => exact ⟨_, .stackBelowLimit hi hw h1⟩
  | stackAtTop hi hw h1 h2 => exact ⟨_, .stackAtTop hi hw h1 h2⟩

theorem emittedBy_setOut (i : Instr) (s : State) (o : List Byte) : emittedBy i (s.setOut o) = emittedBy i s := by
  cases i <;> rfl

theorem Effect.setOut {i : Instr} {s t : State} (e : Effect i s t) (o : List Byte) :
    Effect i (s.setOut o) (t.setOut (o ++ emittedBy i s)) := by
  obtain ⟨o', e'⟩ := e.exists_setOut o
  have ho : o' = o ++ emittedBy i s := emittedBy_setOut i s o ▸ e'.out_eq
  exact ho ▸ e'

/-- Settles O36: the bytes appended are those `emittedBy` names, in place of any output. -/
theorem outputIsWriteOnly : Obligations.OutputIsWriteOnly := by
  refine ⟨fun _ => rfl, fun i s t h => ?_⟩
  have e := exec_effect h
  refine ⟨emittedBy i s, e.out_eq, fun hi => emittedBy_of_not_prn hi s, ?prn, fun o => exec_of_effect (e.setOut o)⟩
  case prn =>
    rintro r rfl
    exact ⟨fun hr => emittedBy_prn_valid hr s, fun hr => emittedBy_prn_invalid hr s⟩

/-! Memory (R32) -/

@[simp] theorem applyAlu_mem (s : State) (i : Fin 8) (r : AluResult) : (s.applyAlu i r).mem = s.mem := by
  rcases r with ⟨_ | _, _ | _⟩ <;> rfl

/-- Memory stays, or it is a PUSH or CALL that stores one byte at the slot below `sp`, above `lim`. -/
theorem Effect.mem_cases {i : Instr} {s t : State} (e : Effect i s t) :
    t.mem = s.mem ∨ ((∃ r, i = .push r ∨ i = .call r) ∧ s.lim < s.sp.toNat ∧
      ∃ v, t.mem = s.mem.write (s.sp.toNat - 1) v) := by
  cases e with
  | alu => exact .inl (applyAlu_mem ..)
  | push r h hi hs => exact .inr ⟨⟨r, .inl hi⟩, lt_of_stackOK_pushSlot hs, _, rfl⟩
  | call r h hi hs => exact .inr ⟨⟨r, .inr hi⟩, lt_of_stackOK_pushSlot hs, _, rfl⟩
  | ldi | prn | pop | ret | jump | fallThrough | hlt => exact .inl rfl
  | badRegister | stackFull | stackBelowLimit | stackAtTop => exact .inl rfl

theorem Effect.memRead_other {i : Instr} {s t : State} (e : Effect i s t) {a : Int} (ha : a ≠ (s.sp.toNat : Int) - 1) :
    t.memRead a = s.memRead a := by
  obtain hm | ⟨_, hlt, v, hm⟩ := e.mem_cases
  · exact State.memRead_congr hm a
  · exact memRead_write_other hm (by omega)

/-- Settles O37: the slot is the one below `sp`, which the operand read does not move. -/
theorem onlyTheStackSlotIsStored : Obligations.OnlyTheStackSlotIsStored := by
  intro i s t h
  have e := exec_effect h
  refine ⟨fun _ slot hslot a ha => ?pushes, fun hi a => ?others⟩
  case pushes => exact e.memRead_other fun hsp => ha (hsp.trans hslot)
  case others =>
    obtain hm | ⟨⟨r, hpush⟩, _⟩ := e.mem_cases
    · exact State.memRead_congr hm a
    · exact absurd hpush (not_or.mpr (hi r))

end Sys2Proof.Machine
end

section
/-! PROOFS. The machine invariant (10_state.md R16 to R23) and the loaded image (20_memory.md R41): what a step keeps.
Each field of the invariant has its lemma over the effects of `exec`. -/

namespace Sys2Proof.Machine

/-! CMP's flags byte (R88) -/

theorem compareFlags_of_lt {a b : Byte} (h : a.toNat < b.toNat) : compareFlags a b = 4 := by
  simp [compareFlags, flagIf, flagLess, h, Nat.lt_asymm h, Nat.ne_of_lt h]

theorem compareFlags_of_gt {a b : Byte} (h : b.toNat < a.toNat) : compareFlags a b = 2 := by
  simp [compareFlags, flagIf, flagGreater, h, Nat.lt_asymm h, Nat.ne_of_gt h]

theorem compareFlags_of_eq {a b : Byte} (h : a.toNat = b.toNat) : compareFlags a b = 1 := by
  simp [compareFlags, flagIf, flagEqual, h]

theorem legalFlags_compareFlags (a b : Byte) : legalFlags (compareFlags a b) := by
  rcases Nat.lt_trichotomy a.toNat b.toNat with h | h | h
  · rw [compareFlags_of_lt h]; decide
  · rw [compareFlags_of_eq h]; decide
  · rw [compareFlags_of_gt h]; decide

/-! The fields of the invariant after an instruction -/

theorem Effect.mem_wf {i : Instr} {s t : State} (e : Effect i s t) (h : s.mem.wf = true) : t.mem.wf = true := by
  obtain hm | ⟨_, _, v, hm⟩ := e.mem_cases
  · exact hm ▸ h
  · exact hm ▸ Memory.wf_write h _ v

/-- The counter stays where it was, or advances past the instruction, or is a byte, or a byte plus one. -/
theorem Effect.pc_le {i : Instr} {s t : State} (e : Effect i s t) (h : s.pc + i.length ≤ 256) : t.pc ≤ 256 := by
  have byte_le (b : Byte) : b.toNat + 1 ≤ 256 := b.isLt
  cases e with
  | ldi _ _ _ hi | prn _ _ hi | push _ _ hi | pop _ _ hi => subst hi; exact h
  | alu op a b ha hb hi => obtain ⟨rfl, _⟩ | ⟨rfl, _⟩ | ⟨rfl, _⟩ := hi <;> exact h
  | fallThrough r hr hi => obtain ⟨rfl, _⟩ | ⟨rfl, _⟩ := hi <;> exact h
  | call | jump => exact (Nat.le_succ _).trans (byte_le _)
  | ret => exact byte_le _
  | hlt | badRegister | stackFull | stackBelowLimit | stackAtTop => exact (Nat.le_add_right _ _).trans h

theorem Effect.legalFlags {i : Instr} {s t : State} (e : Effect i s t) (h : legalFlags s.fl) : legalFlags t.fl := by
  cases e with
  | alu op a b ha hb hi =>
    obtain ⟨_, rfl⟩ | ⟨_, rfl⟩ | ⟨_, rfl⟩ := hi
    · exact h
    · exact h
    · exact legalFlags_compareFlags _ _
  | ldi | prn | push | pop | call | ret | jump | fallThrough | hlt => exact h
  | badRegister | stackFull | stackBelowLimit | stackAtTop => exact h

theorem Effect.stackAbove {i : Instr} {s t : State} (e : Effect i s t)
    (h : s.lim ≤ s.sp.toNat ∨ s.sp = Config.spInit) : t.lim ≤ t.sp.toNat ∨ t.sp = Config.spInit := by
  rw [e.lim_eq]
  obtain hsp | ⟨_, hlim, hsp⟩ | ⟨_, hlim, hsp⟩ := e.sp_cases
  · exact hsp ▸ h
  · exact .inl (by omega)
  · exact .inl (by omega)

/-! Steps -/

theorem State.Inv.fault_eq_none {s : State} (hi : s.Inv) (hr : s.run ≠ .faulted) : s.fault = none := by
  cases hf : s.fault with
  | none => rfl
  | some r => exact absurd (hi.faultRecorded.mpr (by rw [hf]; rfl)) hr

/-- A raised fault keeps the invariant in any run state. -/
theorem State.Inv.raise {s : State} (hi : s.Inv) (kind : FaultKind) (index : Option Int) : (s.raise kind index).Inv :=
  { memWf := hi.memWf, pcRange := hi.pcRange, limRange := hi.limRange, flags := hi.flags, stackAbove := hi.stackAbove
    faultRecorded := ⟨fun _ => rfl, fun _ => rfl⟩
    freshBeforeRun := by simp }

theorem step_faultRecorded {m : Opcodes} {s t : State} (hi : s.Inv) (h : stepWith m s = .next t) :
    t.run = .faulted ↔ t.fault.isSome = true := by
  have hnone : s.fault = none := hi.fault_eq_none (by simp [(step_cases h).1])
  obtain ⟨hrun, hfault⟩ | ⟨_, rfl⟩ | ⟨_, _, rfl, _⟩ := step_completes_or_halts_or_raises h
  · simp [hrun, hfault, hnone]
  · simp [hnone]
  · simp

theorem step_keeps_inv {m : Opcodes} {s t : State} (hi : s.Inv) (h : stepWith m s = .next t) : t.Inv := by
  obtain ⟨_, ⟨i, rest, hd, _, e⟩ | ⟨e, _, rfl⟩⟩ := step_cases h
  · exact {
      memWf := e.mem_wf hi.memWf
      pcRange := e.pc_le (pc_add_length_le hi.pcRange hd)
      limRange := e.lim_eq ▸ hi.limRange
      flags := e.legalFlags hi.flags
      stackAbove := e.stackAbove hi.stackAbove
      faultRecorded := step_faultRecorded hi h
      freshBeforeRun := fun hfresh => by
        obtain hr | hr | hr := step_run_cases h <;> simp [hr] at hfresh }
  · obtain ⟨kind, index, hraise⟩ := raiseRejected_eq s e
    exact hraise ▸ hi.raise kind index

/-- Settles O40, field by field over the effects of `exec`, and for a fault of the cycle. -/
theorem everyStepKeepsTheInvariant : Obligations.EveryStepKeepsTheInvariant :=
  ⟨fun _ _ _ => step_keeps_inv, fun _ _ => step_keeps_inv⟩

/-! The image below `lim` -/

/-- A store lands at or above `lim`. -/
theorem Effect.memRead_below_lim {i : Instr} {s t : State} (e : Effect i s t) {a : Int} (ha : a < s.lim) :
    t.memRead a = s.memRead a := by
  obtain hm | ⟨_, hlim, v, hm⟩ := e.mem_cases
  · exact State.memRead_congr hm a
  · exact memRead_write_other hm (by omega)

/-- A step keeps `lim` and every byte below it. -/
theorem step_keeps_below_lim {m : Opcodes} {s t : State} (h : stepWith m s = .next t) :
    t.lim = s.lim ∧ ∀ a : Int, a < s.lim → t.memRead a = s.memRead a := by
  obtain ⟨_, ⟨_, _, _, _, e⟩ | ⟨e, _, rfl⟩⟩ := step_cases h
  · exact ⟨e.lim_eq, fun a ha => e.memRead_below_lim ha⟩
  · obtain ⟨kind, index, hraise⟩ := raiseRejected_eq s e
    rw [hraise]
    exact ⟨rfl, fun a _ => State.memRead_congr rfl a⟩

/-- Settles O52: a step keeps every byte below `lim`, and the image lies there. -/
theorem everyStepKeepsTheLoadedImage : Obligations.EveryStepKeepsTheLoadedImage := by
  intro m image s t hi hlim himage h
  obtain ⟨hlim', hread⟩ := step_keeps_below_lim h
  refine ⟨step_keeps_inv hi h, hlim'.trans hlim, fun k hk => ?_⟩
  rw [hread _ (by omega), himage k hk]

end Sys2Proof.Machine
end

section
/-! PROOFS. Reset, loads and launches (50_host_interface.md R110 to R114): what they leave in memory, and the
invariant at the start of a run. -/

namespace Sys2Proof.Machine

theorem resetWith_inv (r7 : Byte) : (State.resetWith r7).Inv :=
  { memWf := rfl, pcRange := Nat.zero_le _, limRange := Nat.zero_le _, flags := .inl rfl, stackAbove := .inr rfl
    faultRecorded := ⟨nofun, nofun⟩
    freshBeforeRun := fun _ => rfl }

/-- A core that has not run still has its stack pointer at the reset value. -/
theorem State.Inv.sp_of_idle {s : State} (hi : s.Inv) (hr : s.run = .idle) : s.sp = Config.spInit :=
  congrArg State.sp (hi.freshBeforeRun (.inl hr))

theorem State.Inv.load {s : State} (hi : s.Inv) (hr : s.run = .idle) {image : List Byte} (hf : imageFits image) :
    (s.load image).Inv :=
  { memWf := Memory.wf_writeBytes hi.memWf _ _, pcRange := hi.pcRange, limRange := hf, flags := hi.flags
    stackAbove := .inr (hi.sp_of_idle hr)
    faultRecorded := hi.faultRecorded
    freshBeforeRun := fun h => congrArg (State.load · image) (hi.freshBeforeRun h) }

theorem State.Inv.loadFail {s : State} (hi : s.Inv) (hr : s.run = .idle) (call : Nat) : (s.loadFail call).Inv :=
  { memWf := Memory.wf_failedMemory call, pcRange := hi.pcRange, limRange := hi.limRange, flags := hi.flags
    stackAbove := hi.stackAbove
    faultRecorded := by simp [hi.fault_eq_none (by simp [hr])]
    freshBeforeRun := fun _ => congrArg (State.loadFail · call) (hi.freshBeforeRun (.inl hr)) }

theorem State.Inv.deliver {s : State} (hi : s.Inv) (hr : s.run = .idle) (image : List Byte) (call : Nat) :
    (s.deliver image call).Inv := by
  unfold State.deliver
  split
  · next hf => exact hi.load hr hf
  · exact hi.loadFail hr call

theorem State.Inv.start {s : State} (hi : s.Inv) (hr : s.run = .idle) : s.start.Inv :=
  { memWf := hi.memWf, pcRange := hi.pcRange, limRange := hi.limRange, flags := hi.flags, stackAbove := hi.stackAbove
    faultRecorded := by simp [hi.fault_eq_none (by simp [hr])]
    freshBeforeRun := by simp }

theorem launch_inv (r7 : Byte) {image : List Byte} (hf : imageFits image) : (launch r7 image).Inv :=
  ((resetWith_inv r7).load rfl hf).start rfl

/-- Settles O39: reset meets the invariant, and the load and the `run()` of a launch keep it. -/
theorem resetAndLaunchMeetTheInvariant : Obligations.ResetAndLaunchMeetTheInvariant :=
  fun r7 _ => ⟨resetWith_inv r7, launch_inv r7⟩

/-! What a load leaves in memory (R112) -/

theorem State.load_holdsAt {s : State} (hm : s.mem.wf = true) {image : List Byte} (hf : imageFits image) :
    (s.load image).HoldsAt 0 image := by
  intro k hk
  have hlen : image.length ≤ 256 := hf
  have hb : inBounds (((0 : Nat) : Int) + k) := by unfold inBounds; omega
  have hn : (((0 : Nat) : Int) + k).toNat = 0 + k := by omega
  rw [State.memRead_inBounds _ _ hb, hn]
  exact congrArg some (Memory.get_writeBytes_inside hm 0 image (by omega) hk)

theorem State.load_memRead_beyond (s : State) {image : List Byte} {a : Int} (ha : (image.length : Int) ≤ a) :
    (s.load image).memRead a = s.memRead a := by
  have hget : (s.load image).mem.get a.toNat = s.mem.get a.toNat :=
    Memory.get_writeBytes_outside s.mem 0 image (.inr (by omega))
  simp only [State.memRead, hget]

theorem launch_holdsAt (r7 : Byte) {image : List Byte} (hf : imageFits image) : (launch r7 image).HoldsAt 0 image :=
  State.load_holdsAt (s := State.resetWith r7) rfl hf

/-- Settles O41: the launch has the image below `lim`, and every step keeps it there. -/
theorem loadedImageNeverChanges : Obligations.LoadedImageNeverChanges := by
  intro m r7 image s hs
  induction hs with
  | start hf => exact ⟨launch_inv r7 hf, rfl, launch_holdsAt r7 hf⟩
  | step _ hstep ih =>
    obtain ⟨hi, hlim, himage⟩ := ih
    exact everyStepKeepsTheLoadedImage m image _ _ hi hlim himage hstep

end Sys2Proof.Machine
end

section
/-! PROOFS. The host's calls (50_host_interface.md R110 to R117): what each answered call leaves, and which calls are
refused. -/

namespace Sys2Proof.Machine

/-! The invariant along a session -/

theorem hostCall_keeps_inv {r7 : Byte} {c : HostCall} {h h' : Session} (hi : ∀ s, h.core = some s → s.Inv)
    (e : hostCall r7 c h = .next h') : ∃ t, h'.core = some t ∧ t.Inv := by
  obtain ⟨_, _, rfl⟩ | ⟨s, hc, hr, _, ⟨image, _, rfl⟩ | ⟨_, rfl⟩⟩ | ⟨_, ⟨s, hc, hr, _, rfl⟩ | ⟨s, hc, _, rfl⟩⟩ :=
    hostCall_cases e
  · exact ⟨_, rfl, resetWith_inv r7⟩
  · exact ⟨_, rfl, (hi s hc).deliver hr image h.calls⟩
  · exact ⟨_, rfl, (hi s hc).loadFail hr h.calls⟩
  · exact ⟨_, rfl, (hi s hc).start hr⟩
  · exact ⟨_, rfl, hi s hc⟩

/-- Settles O53, call by call. -/
theorem everyHostCallKeepsTheInvariant : Obligations.EveryHostCallKeepsTheInvariant :=
  fun _ _ _ _ => hostCall_keeps_inv

/-- Settles O42: the start has no core, and every call and every step keeps the invariant. -/
theorem everySessionKeepsTheInvariant : Obligations.EverySessionKeepsTheInvariant := by
  intro m r7 h s hreach hc
  induction hreach generalizing s with
  | cold => cases hc
  | call c _ hcall ih =>
    obtain ⟨t, ht, hi⟩ := hostCall_keeps_inv ih hcall
    obtain rfl := Option.some.inj (hc.symm.trans ht)
    exact hi
  | step _ hc' hstep ih =>
    obtain rfl := Option.some.inj hc
    exact step_keeps_inv (ih _ hc') hstep

/-! Which calls are answered -/

theorem hostCall_init {r7 : Byte} {h : Session} (hr : ∀ s, h.core = some s → s.run ≠ .running) :
    hostCall r7 .init h = .next (h.after (State.resetWith r7) false) := by
  have hi : h.initializable = true := by
    unfold Session.initializable
    split
    · next s hc => simpa using hr s hc
    · rfl
  simp only [hostCall, hi, if_true]

theorem Session.loadable_of_idle {h : Session} {s : State} (hc : h.core = some s) (hr : s.run = .idle)
    (hl : h.loaded = false) : h.loadable = some s := by
  simp [Session.loadable, hc, hr, hl]

theorem hostCall_load {r7 : Byte} {h : Session} {s : State} (e : h.loadable = some s) {image : List Byte}
    (hf : imageFits image) : hostCall r7 (.load image) h = .next (h.after (s.load image) true) := by
  simp only [hostCall, e, State.deliver, if_pos hf]

theorem Session.runnable_of_loaded {h : Session} {s : State} (hc : h.core = some s) (hr : s.run = .idle)
    (hl : h.loaded = true) : h.runnable = some s.start := by
  simp [Session.runnable, hc, hr, hl]

/-- Settles O48: `init` is answered with the reset core wherever no core is Running. -/
theorem initializeDiscardsEverything : Obligations.InitializeDiscardsEverything :=
  fun _ _ hr => ⟨_, hostCall_init hr, rfl, rfl⟩

/-- Settles O44: the load of an image that fits, and what it leaves in memory. -/
theorem loadFillsFromZero : Obligations.LoadFillsFromZero :=
  fun _ _ s _ hc hr hl hm hf =>
    ⟨_, _, hostCall_load (Session.loadable_of_idle hc hr hl) hf, rfl, rfl, rfl, State.load_holdsAt hm hf,
      fun _ ha => s.load_memRead_beyond ha⟩

/-- Settles O51: `run()` starts the Idle core of a session that has its load. -/
theorem runStartsALoadedCore : Obligations.RunStartsALoadedCore :=
  fun _ _ _ hc hr hl => ⟨_, hostCall_run (Session.runnable_of_loaded hc hr hl), rfl, hl⟩

/-- Settles O43: each of the three calls makes the session that the next one needs. -/
theorem theLegalSequenceLaunches : Obligations.TheLegalSequenceLaunches := by
  intro r7 h image hr hf
  have hinit := hostCall_init (r7 := r7) hr
  have hload := hostCall_load (r7 := r7) (h := h.after (State.resetWith r7) false)
    (Session.loadable_of_idle rfl rfl rfl) hf
  have hrun := hostCall_run (r7 := r7)
    (h := (h.after (State.resetWith r7) false).after ((State.resetWith r7).load image) true)
    (Session.runnable_of_loaded rfl rfl rfl)
  refine ⟨_, _, _, launch r7 image, hinit, rfl, hload, hrun, rfl, rfl, rfl, launch_holdsAt r7 hf, fun a ha h255 => ?_⟩
  calc (launch r7 image).memRead a
      = ((State.resetWith r7).load image).memRead a := State.memRead_congr rfl a
    _ = (State.resetWith r7).memRead a := State.load_memRead_beyond _ ha
    _ = some 0 := State.memRead_inBounds _ a (by unfold inBounds; omega)

/-! Failed loads (R113) -/

/-- A reported failure and an over-long image leave the same core. -/
theorem hostCall_failing {r7 : Byte} {h : Session} {s : State} {c : HostCall} (e : h.loadable = some s)
    (hc : c = .loadFailed ∨ ∃ image, c = .load image ∧ 256 < image.length) :
    hostCall r7 c h = .next (h.after (s.loadFail h.calls) true) := by
  obtain rfl | ⟨image, rfl, hlong⟩ := hc
  · simp only [hostCall, e]
  · have hf : ¬ imageFits image := Nat.not_le.mpr hlong
    simp only [hostCall, e, State.deliver, if_neg hf]

/-- Settles O45: the call leaves the core in LoadFailed, where no step exists and `run()` leaves it as it is. -/
theorem failedLoadNeverRuns : Obligations.FailedLoadNeverRuns := by
  intro m r7 h h' s c hc hr hl hfail e
  cases (hostCall_failing (Session.loadable_of_idle hc hr hl) hfail).symm.trans e
  exact ⟨_, rfl, rfl, rfl, stepWith_of_not_running nofun, _, hostCall_run (Session.runnable_of_loadFailed rfl rfl), rfl⟩

/-! Calls out of order (D18) -/

/-- A call that cannot be answered is refused by name. -/
theorem hostCall_refused {r7 : Byte} {c : HostCall} {h : Session} (hne : ∀ h', hostCall r7 c h ≠ .next h') :
    hostCall r7 c h = .refused (.callOutOfOrder c) := by
  cases c with
  | init =>
    simp only [hostCall] at hne ⊢
    split
    · next hi => exact absurd (if_pos hi) (hne _)
    · rfl
  | load image | loadFailed =>
    simp only [hostCall] at hne ⊢
    cases hl : h.loadable with
    | none => rfl
    | some s => exact absurd (by rw [hl]) (hne _)
  | run =>
    simp only [hostCall] at hne ⊢
    cases hl : h.runnable with
    | none => rfl
    | some s => exact absurd (by rw [hl]) (hne _)

theorem Session.not_running_of_initializable {h : Session} {s : State} (hi : h.initializable = true)
    (hc : h.core = some s) : s.run ≠ .running := by
  simpa [Session.initializable, hc] using hi

/-- The calls that are answered: `init` unless the core is Running; a load in Idle, once per launch; `run()` in
Idle after the load, and in LoadFailed. -/
theorem answered_cases {r7 : Byte} {c : HostCall} {h h' : Session} (e : hostCall r7 c h = .next h') :
    (c = .init ∧ ∀ s, h.core = some s → s.run ≠ .running) ∨
      ∃ s, h.core = some s ∧
        ((s.run = .idle ∧ h.loaded = false ∧ c ≠ .run) ∨ (s.run = .idle ∧ h.loaded = true ∧ c = .run) ∨
          (s.run = .loadFailed ∧ c = .run)) := by
  obtain ⟨hc, hi, _⟩ | ⟨s, hs, hr, hl, ⟨image, rfl, _⟩ | ⟨rfl, _⟩⟩ | ⟨rfl, ⟨s, hs, hr, hl, _⟩ | ⟨s, hs, hr, _⟩⟩ :=
    hostCall_cases e
  · exact .inl ⟨hc, fun _ => Session.not_running_of_initializable hi⟩
  · exact .inr ⟨s, hs, .inl ⟨hr, hl, nofun⟩⟩
  · exact .inr ⟨s, hs, .inl ⟨hr, hl, nofun⟩⟩
  · exact .inr ⟨s, hs, .inr (.inl ⟨hr, hl, rfl⟩)⟩
  · exact .inr ⟨s, hs, .inr (.inr ⟨hr, rfl⟩)⟩

/-- Settles O47: none of the five situations is one in which the call is answered. -/
theorem outOfOrderCallsAreRefused : Obligations.OutOfOrderCallsAreRefused := by
  intro r7 c h
  refine ⟨fun hnone hne => ?noCore, fun hl hc => ?secondLoad, fun s hs hr hl hc => ?runBeforeLoad,
    fun s hs hr hne => ?stopped, fun s hs hr => ?running⟩ <;> refine hostCall_refused fun h' e => ?_
  case noCore =>
    obtain ⟨hc, _⟩ | ⟨s, hs, _⟩ := answered_cases e
    · exact hne hc
    · cases hnone.symm.trans hs
  case secondLoad =>
    obtain ⟨rfl, _⟩ | ⟨s, _, ⟨_, hl', _⟩ | ⟨_, _, rfl⟩ | ⟨_, rfl⟩⟩ := answered_cases e
    · simp at hc
    · cases hl.symm.trans hl'
    · simp at hc
    · simp at hc
  case runBeforeLoad =>
    obtain ⟨hc', _⟩ | ⟨s', hs', ⟨_, _, hne⟩ | ⟨_, hl', _⟩ | ⟨hr', _⟩⟩ := answered_cases e
    · cases hc.symm.trans hc'
    · exact hne hc
    · cases hl.symm.trans hl'
    · obtain rfl := Option.some.inj (hs.symm.trans hs')
      cases hr.symm.trans hr'
  case stopped =>
    obtain ⟨hc, _⟩ | ⟨s', hs', hanswered⟩ := answered_cases e
    · exact hne hc
    · obtain rfl := Option.some.inj (hs.symm.trans hs')
      obtain hr | hr := hr <;> simp [hr] at hanswered
  case running =>
    obtain ⟨_, hnr⟩ | ⟨s', hs', hanswered⟩ := answered_cases e
    · exact hnr s hs hr
    · obtain rfl := Option.some.inj (hs.symm.trans hs')
      simp [hr] at hanswered

end Sys2Proof.Machine
end

section
/-! PROOFS. The Dispatcher's loop (40_cycle.md R78) under fuel. -/

namespace Sys2Proof.Machine

theorem runLoop_of_next {m : Opcodes} {s t : State} (h : stepWith m s = .next t) (fuel : Nat) :
    runLoop m (fuel + 1) s = runLoop m fuel t := by
  simp only [runLoop, h]

/-- Where no step exists, fuel is not used. -/
theorem runLoop_of_not_running {m : Opcodes} {s : State} (h : s.run ≠ .running) (fuel : Nat) :
    runLoop m fuel s = s := by
  cases fuel with
  | zero => rfl
  | succ fuel => simp only [runLoop, stepWith_of_not_running h]

theorem runLoop_add (m : Opcodes) (fuel more : Nat) (s : State) :
    runLoop m (fuel + more) s = runLoop m more (runLoop m fuel s) := by
  induction fuel generalizing s with
  | zero => rw [Nat.zero_add]; rfl
  | succ fuel ih =>
    by_cases hr : s.run = .running
    · obtain ⟨t, ht⟩ := stepWith_isNext (m := m) hr
      rw [Nat.succ_add, runLoop_of_next ht, runLoop_of_next ht, ih]
    · simp only [runLoop_of_not_running hr]

/-- Settles O50: more fuel goes on from where the loop was, which is no further once the run has stopped. -/
theorem stoppedRunsStayStopped : Obligations.StoppedRunsStayStopped := by
  intro m fuel more s
  refine ⟨rfl, fun hstop => ?stopped, fun _ t ht => ?running⟩
  case stopped => rw [runLoop_add, runLoop_of_not_running hstop]
  case running => rw [runLoop_add, runLoop_of_next ht]; rfl

end Sys2Proof.Machine
end

section
/-! PROOFS. PRN and HLT (41_load_print.md R81, 45_halt_illegal.md R105). -/

namespace Sys2Proof.Machine

/-- The register fault of an instruction with one register operand. -/
theorem exec_bad_register {i : Instr} {r : Byte} (hi : i.regOperands = [r]) (h : 8 ≤ r.toNat) (s : State) :
    exec i s = .next (s.raise (.outOfBounds .regIndex) (some r.toNat)) :=
  exec_of_effect (.badRegister r (find_one hi h))

/-- Settles O16: the effect of PRN, and the register fault, which keeps the output. -/
theorem prnEmitsTheRegister : Obligations.PrnEmitsTheRegister := by
  refine ⟨fun _ hm => ⟨fun _ => rfl, boundsBeforeExecute hm .prn⟩, fun r s => ⟨fun h => ?emits, fun h => ?fault⟩⟩
  case emits => exact exec_of_effect (.prn r h rfl)
  case fault =>
    have hf := exec_bad_register (i := .prn r) rfl h s
    exact ⟨hf, fun t ht => next_inj (hf.symm.trans ht) ▸ rfl⟩

/-- Settles O31: the effect of HLT, after which the core is not Running. -/
theorem hltStopsTheRun : Obligations.HltStopsTheRun := by
  refine ⟨fun _ hm => ⟨rfl, boundsBeforeExecute hm .hlt⟩, fun m s => ?_⟩
  have hh : exec .hlt s = .next (s.setRun .halted) := exec_of_effect (.hlt rfl)
  refine ⟨hh, fun t ht => ?_⟩
  obtain rfl := next_inj (hh.symm.trans ht)
  exact ⟨rfl, stepWith_of_not_running nofun⟩

/-! LDI, then PRN (R81) -/

theorem State.HoldsAt.append {s : State} {a : Nat} {xs ys : List Byte} (h : s.HoldsAt a (xs ++ ys)) :
    s.HoldsAt a xs ∧ s.HoldsAt (a + xs.length) ys := by
  constructor
  · intro k hk
    have hbyte := h k (by rw [List.length_append]; omega)
    rwa [List.getElem_append_left hk] at hbyte
  · intro k hk
    have hbyte := h (xs.length + k) (by rw [List.length_append]; omega)
    rw [List.getElem_append_right (Nat.le_add_right _ _)] at hbyte
    simpa [Int.add_assoc] using hbyte

theorem State.HoldsAt.of_mem_eq {s t : State} {a : Nat} {bs : List Byte} (h : s.HoldsAt a bs) (hm : t.mem = s.mem) :
    t.HoldsAt a bs :=
  fun k hk => (State.memRead_congr hm _).trans (h k hk)

/-- A step of a Running core over the encoding of an instruction runs that instruction. -/
theorem stepWith_of_encoded {m : Opcodes} {s : State} {i : Instr} (hm : m.Distinct) (hr : s.run = .running)
    (hb : s.HoldsAt s.pc (encode m i)) : stepWith m s = exec i s :=
  stepWith_of_holdsAt hr hb (List.append_nil (encode m i) ▸ decodeOfEncodeIsTheInstruction m i [] hm)

/-- Settles O17: LDI leaves the bytes of the PRN after it in place, and the PRN emits the register LDI wrote. -/
theorem ldiThenPrnEmitsTheValue : Obligations.LdiThenPrnEmitsTheValue := by
  intro m s r v hm hr h hbytes
  obtain ⟨hldi, hprn⟩ := State.HoldsAt.append (xs := encode m (.ldi r v)) (ys := encode m (.prn r)) hbytes
  let t := (s.setReg ⟨r.toNat, h⟩ v).setPc (s.pc + 3)
  have hload : exec (.ldi r v) s = .next t := exec_of_effect (.ldi r v h rfl)
  have hemit := exec_of_effect (.prn (s := t) r h rfl)
  have hrun : t.run = .running := hr
  have hprn' : t.HoldsAt t.pc (encode m (.prn r)) := hprn.of_mem_eq rfl
  refine ⟨t, _, (stepWith_of_encoded hm hr hldi).trans hload, (stepWith_of_encoded hm hrun hprn').trans hemit, ?output,
    rfl, hr⟩
  case output => exact congrArg (fun b => s.out ++ [b]) (Regs.get_set_same s.regs _ v)

end Sys2Proof.Machine
end

section
/-! PROOFS. PUSH, POP, CALL and RET (43_stack.md R91, R92; 44_control.md R96, R97). -/

namespace Sys2Proof.Machine

theorem not_stackOK_pushSlot {s : State} (h : s.sp.toNat ≤ s.lim) : ¬ s.stackOK s.pushSlot :=
  fun hs => absurd (lt_of_stackOK_pushSlot hs) (Nat.not_lt.mpr h)

/-- What a push of `v` leaves in memory: `v` at the slot, every other address as it was. -/
theorem memRead_after_push {s t : State} {v : Byte} (hs : s.lim < s.sp.toNat)
    (ht : t.mem = s.mem.write (s.sp.toNat - 1) v) :
    (s.mem.wf = true → t.memRead ((s.sp.toNat : Int) - 1) = some v) ∧
      ∀ a, a ≠ (s.sp.toNat : Int) - 1 → t.memRead a = s.memRead a :=
  ⟨fun hm => memRead_pushed hm (by omega) ht, fun _ ha => memRead_write_other ht (by omega)⟩

/-- Settles O21: the effect of PUSH, the register fault, and the full stack. -/
theorem pushStoresBelowTheTop : Obligations.PushStoresBelowTheTop := by
  refine ⟨fun _ hm => ⟨fun _ => rfl, boundsBeforeExecute hm .push⟩,
    fun r s => ⟨fun h hs => ?store, fun h => exec_bad_register rfl h s, fun h hs => ?full⟩⟩
  case store => exact ⟨_, exec_of_effect (.push r h rfl (stackOK_pushSlot hs)), rfl, memRead_after_push hs rfl⟩
  case full => exact exec_of_effect (.stackFull ⟨r, .inl rfl⟩ (wellFormed_one rfl h) (not_stackOK_pushSlot hs))

/-- Settles O24: the effect of CALL, the register fault, and the full stack. -/
theorem callStacksItsOperandAddress : Obligations.CallStacksItsOperandAddress := by
  refine ⟨fun _ hm => ⟨fun _ => rfl, boundsBeforeExecute hm .call⟩,
    fun r s => ⟨fun h hs => ?store, fun h => exec_bad_register rfl h s, fun h hs => ?full⟩⟩
  case store => exact ⟨_, exec_of_effect (.call r h rfl (stackOK_pushSlot hs)), rfl, memRead_after_push hs rfl⟩
  case full => exact exec_of_effect (.stackFull ⟨r, .inr rfl⟩ (wellFormed_one rfl h) (not_stackOK_pushSlot hs))

theorem memRead_sp (s : State) : s.memRead s.sp.toNat = some (s.mem.get s.sp.toNat) :=
  s.memRead_inBounds _ (by have := s.sp.isLt; unfold inBounds; omega)

/-- Settles O22: the effect of POP, the register fault, and the two bounds of a pop. -/
theorem popLoadsTheTop : Obligations.PopLoadsTheTop := by
  refine ⟨fun _ hm => ⟨fun _ => rfl, boundsBeforeExecute hm .pop⟩,
    fun r s => ⟨fun h hl ht => ?load, fun h => exec_bad_register rfl h s, fun h hl => ?below, fun h hl ht => ?top⟩⟩
  case load => exact ⟨_, memRead_sp s, exec_of_effect (.pop r h rfl hl ht)⟩
  case below => exact exec_of_effect (.stackBelowLimit (.inl ⟨r, rfl⟩) (wellFormed_one rfl h) hl)
  case top => exact exec_of_effect (.stackAtTop (.inl ⟨r, rfl⟩) (wellFormed_one rfl h) hl ht)

/-- Settles O25: the effect of RET, and the two bounds of a pop. -/
theorem retResumesPastTheStackedByte : Obligations.RetResumesPastTheStackedByte := by
  refine ⟨fun _ hm => ⟨rfl, boundsBeforeExecute hm .ret⟩,
    fun s => ⟨fun hl ht => ?resume, fun hl => ?below, fun hl ht => ?top⟩⟩
  case resume => exact ⟨_, memRead_sp s, exec_of_effect (.ret rfl hl ht)⟩
  case below => exact exec_of_effect (.stackBelowLimit (.inr rfl) rfl hl)
  case top => exact exec_of_effect (.stackAtTop (.inr rfl) rfl hl ht)

/-! A push and its pop (R92, R96, R97) -/

theorem Regs.set_get_self (x : Regs) (i : Fin 8) : x.set i (x.get i) = x := by
  fin_cases i <;> rfl

theorem sub_one_add_one (p : Byte) : p - 1 + 1 = p := by
  bv_omega

/-- After a push from above `lim` a pop is within its bounds. -/
theorem popOK_after_push {s : State} (hs : s.lim < s.sp.toNat) :
    s.lim ≤ (s.sp - 1).toNat ∧ (s.sp - 1).toNat < 255 := by
  have hlt := s.sp.isLt
  rw [toNat_sub_one (by omega)]
  omega

/-- The byte at the stack pointer a push leaves is the pushed one. -/
theorem get_pushed {s : State} (hm : s.mem.wf = true) (hs : s.lim < s.sp.toNat) (v : Byte) :
    (s.mem.write (s.sp.toNat - 1) v).get (s.sp - 1).toNat = v := by
  have hlt := s.sp.isLt
  rw [toNat_sub_one (by omega), Memory.get_write hm (by omega), if_pos rfl]

/-- Settles O23: the pop finds the slot in bounds, reads the pushed byte from it, and moves `sp` back up. -/
theorem pushThenPopRestores : Obligations.PushThenPopRestores := by
  intro r s h hs hm
  obtain ⟨hl, ht⟩ := popOK_after_push hs
  have epush := Effect.push (s := s) r h rfl (stackOK_pushSlot hs)
  refine ⟨_, _, exec_of_effect epush, exec_of_effect (.pop r h rfl hl ht), sub_one_add_one s.sp, ?registers, rfl⟩
  case registers =>
    exact (congrArg (s.regs.set _) (get_pushed hm hs _)).trans (Regs.set_get_self s.regs _)

/-- Settles O26: the byte RET finds is the one CALL stacked, `pc + 1`, which fits in a byte. -/
theorem callThenRetResumesAfterTheCall : Obligations.CallThenRetResumesAfterTheCall := by
  intro r s t u h hs hm hpc hcall hsp hlim hbyte
  have hread : u.mem.get u.sp.toNat = t.mem.get t.sp.toNat := by
    rw [← hsp] at hbyte
    exact Option.some.inj ((memRead_sp u).symm.trans (hbyte.trans (hsp ▸ memRead_sp t)))
  obtain rfl := eq_of_exec_of_effect hcall (.call r h rfl (stackOK_pushSlot hs))
  replace hsp : u.sp = s.sp - 1 := hsp
  have hget : u.mem.get u.sp.toNat = BitVec.ofNat 8 (s.pc + 1) := hread.trans (get_pushed hm hs _)
  obtain ⟨hl, ht⟩ := popOK_after_push hs
  have hret := exec_of_effect (.ret (i := .ret) (s := u) rfl (by rwa [hsp, hlim]) (by rwa [hsp]))
  have hnat : (BitVec.ofNat 8 (s.pc + 1)).toNat = s.pc + 1 := by
    rw [BitVec.toNat_ofNat, Nat.mod_eq_of_lt (by omega)]
  rw [hget, hnat, hsp, sub_one_add_one] at hret
  exact hret

end Sys2Proof.Machine
end

section
/-! PROOFS. CMP, JEQ and JNE (42_alu.md R88; 44_control.md R99, R100): the flags byte and the branches it decides. -/

namespace Sys2Proof.Machine

theorem exec_cmp {a b : Byte} (ha : a.toNat < 8) (hb : b.toNat < 8) (s : State) :
    exec (.cmp a b) s = .next ((s.setFl (compareFlags (s.regs.get ⟨a.toNat, ha⟩) (s.regs.get ⟨b.toNat, hb⟩))).setPc
      (s.pc + 3)) :=
  exec_of_effect (.alu aluCmp a b ha hb (.inr (.inr ⟨rfl, rfl⟩)))

/-- Settles O20: the flags byte of each of the three orders, and the register faults of two operands. -/
theorem cmpRecomputesAllFlags : Obligations.CmpRecomputesAllFlags :=
  ⟨fun _ hm => ⟨fun _ _ => rfl, boundsBeforeExecute hm .cmp⟩,
    fun _ _ s => ⟨fun ha hb => ⟨_, exec_cmp ha hb s, compareFlags_of_lt, compareFlags_of_gt, compareFlags_of_eq⟩,
      exec_two_bad_registers rfl s⟩⟩

theorem jeqTaken_iff {fl : Byte} : jeqTaken fl = true ↔ fl = 1 := by
  simp [jeqTaken]

theorem jneTaken_iff {fl : Byte} : jneTaken fl = true ↔ fl = 0 ∨ fl = 2 ∨ fl = 4 := by
  simp [jneTaken, or_assoc]

/-- JEQ with a legal register: the register when the flags byte is 1, the next instruction otherwise. -/
theorem exec_jeq {r : Byte} (h : r.toNat < 8) (s : State) :
    (s.fl = 1 → exec (.jeq r) s = .next (s.setPc (s.regs.get ⟨r.toNat, h⟩).toNat)) ∧
    (s.fl ≠ 1 → exec (.jeq r) s = .next (s.setPc (s.pc + 2))) := by
  refine ⟨fun hf => exec_of_effect (.jump r h (.inr (.inl ⟨rfl, jeqTaken_iff.mpr hf⟩))), fun hf => ?_⟩
  exact exec_of_effect (.fallThrough r h (.inl ⟨rfl, Bool.eq_false_iff.mpr (mt jeqTaken_iff.mp hf)⟩))

/-- JNE with a legal register: the register when the flags byte is 0, 2 or 4, the next instruction otherwise. -/
theorem exec_jne {r : Byte} (h : r.toNat < 8) (s : State) :
    ((s.fl = 0 ∨ s.fl = 2 ∨ s.fl = 4) → exec (.jne r) s = .next (s.setPc (s.regs.get ⟨r.toNat, h⟩).toNat)) ∧
    (¬ (s.fl = 0 ∨ s.fl = 2 ∨ s.fl = 4) → exec (.jne r) s = .next (s.setPc (s.pc + 2))) := by
  refine ⟨fun hf => exec_of_effect (.jump r h (.inr (.inr ⟨rfl, jneTaken_iff.mpr hf⟩))), fun hf => ?_⟩
  exact exec_of_effect (.fallThrough r h (.inr ⟨rfl, Bool.eq_false_iff.mpr (mt jneTaken_iff.mp hf)⟩))

/-- Settles O28, from the two cases of JEQ's test and the register fault. -/
theorem jeqComparesTheWholeByte : Obligations.JeqComparesTheWholeByte :=
  ⟨fun _ hm => ⟨fun _ => rfl, boundsBeforeExecute hm .jeq⟩,
    fun _ s => ⟨fun h => exec_jeq h s, fun h => exec_bad_register rfl h s⟩⟩

/-- Settles O29, from the two cases of JNE's test and the register fault. -/
theorem jneComparesTheWholeByte : Obligations.JneComparesTheWholeByte :=
  ⟨fun _ hm => ⟨fun _ => rfl, boundsBeforeExecute hm .jne⟩,
    fun _ s => ⟨fun h => exec_jne h s, fun h => exec_bad_register rfl h s⟩⟩

theorem compareFlags_of_ne {a b : Byte} (h : a ≠ b) : compareFlags a b = 4 ∨ compareFlags a b = 2 := by
  rcases Nat.lt_or_gt_of_ne (mt BitVec.eq_of_toNat_eq h) with hlt | hgt
  · exact .inl (compareFlags_of_lt hlt)
  · exact .inr (compareFlags_of_gt hgt)

/-- Settles O30: equal registers give the flags byte 1, different ones 4 or 2, and the two tests tell these apart. -/
theorem cmpDecidesTheBranches : Obligations.CmpDecidesTheBranches := by
  intro a b r s t ha hb hr hcmp
  obtain rfl := next_inj ((exec_cmp ha hb s).symm.trans hcmp)
  refine ⟨fun heq => ?equal, fun hne => ?different⟩
  case equal =>
    have hf := compareFlags_of_eq (congrArg BitVec.toNat heq)
    exact ⟨(exec_jeq hr _).1 hf, (exec_jne hr _).2 (by simp [hf])⟩
  case different =>
    have hf := compareFlags_of_ne hne
    exact ⟨(exec_jeq hr _).2 (by obtain hf | hf := hf <;> simp [hf]), (exec_jne hr _).1 (.inr hf.symm)⟩

end Sys2Proof.Machine
end
